-- ==== Sys2Proof/Word.lean ====
section
/-! DEFINITION. The word types of QMATH: the widths that the request, the response and the command fields have. -/

namespace Sys2Proof

/-- A raw or a command word: 32 bits, read as signed by `BitVec.toInt` (two's complement, `00_scope.md` R5, R7). -/
abbrev Word := BitVec 32

/-- A fractional-bit count field of the command word (`FA`, `FB`, `FY`): 6 bits, read as unsigned by
`BitVec.toNat` (`30_encoding.md` R56, R59). -/
abbrev Count := BitVec 6

/-- The exponent output `E`: 8 bits, signed (`30_encoding.md` R57). -/
abbrev ExpByte := BitVec 8

/-- The `STATUS` of a response: 2 bits (`30_encoding.md` R57). -/
abbrev StatusBits := BitVec 2

/-- The selector `EXT_SEL` as the external port drives it: 1 bit (`30_encoding.md` R68). -/
abbrev SelBit := BitVec 1

end Sys2Proof
end

