-- ==== Sys2Proof/Syntax.lean ====
section
/-! DEFINITION. The thirteen operations of QMATH and the three ways a command word can be malformed. -/

namespace Sys2Proof

/-- One operation with the command fields it uses (`30_encoding.md` R58). A field the operation does not use must be
zero (R60) and is no argument; the operands `A` and `B` are registers of the state, not part of the command word. -/
inductive Instr where
  /-- OP 0, multiply-rescale (`40_qarith.md` R78). -/
  | qmul (fa fb fy : Count)
  /-- OP 1, shift-rescale with rounding (`40_qarith.md` R82). -/
  | qshr (fa fy : Count)
  /-- OP 2, exact shift-rescale (`40_qarith.md` R85). -/
  | qshl (fa fy : Count)
  /-- OP 3, range reducer, `fa` = `precision_x` (`41_range_reducer.md` R90). -/
  | rexp (fa : Count)
  /-- OP 4, base-10 logarithm (`42_polynomial.md` R104). -/
  | log10
  /-- OP 5, sine (`42_polynomial.md` R110). -/
  | sin
  /-- OP 6, arcsine (`42_polynomial.md` R114). -/
  | asin
  /-- OP 7, reciprocal, `fa` = `precision_x`, `fy` = `precision_y` (`42_polynomial.md` R120). -/
  | inv (fa fy : Count)
  /-- OP 8, natural logarithm (`43_composition.md` R131). -/
  | log
  /-- OP 9, linear gain to decibels (`43_composition.md` R133). -/
  | lin2db
  /-- OP 10, decibels to linear gain, external (`43_composition.md` R135). -/
  | db2lin
  /-- OP 11, exponential adapter, external (`43_composition.md` R137). -/
  | kneeexp
  /-- OP 12, power, external (`43_composition.md` R139). -/
  | pow
  deriving DecidableEq, Repr

/-- The three command errors, the complete list of faults of the block (`60_exceptions.md` R150). -/
inductive CmdError where
  /-- Code 1: `OP` is 13, 14 or 15. -/
  | illegalOp
  /-- Code 2: `RSV` or a must-be-zero field is not zero. -/
  | reservedField
  /-- Code 3: a used field exceeds 31 or the fields' relation fails. -/
  | badParam
  deriving DecidableEq, Repr

end Sys2Proof
end

