-- ==== Sys2Proof/WellFormed.lean ====
section
/-! DEFINITION. Parameter legality of an operation (`30_encoding.md` R61), as a check on the syntax. -/

namespace Sys2Proof

/-- A fractional-bit count that a 32-bit raw can have: 0 to 31 (`30_encoding.md` R61). -/
def Count.legal (f : Count) : Bool := decide (f.toNat ≤ 31)

/-- `30_encoding.md` R61: every used count is at most 31; QMUL needs `FA + FB - FY >= 0`, QSHR `FA >= FY`, QSHL
`FY >= FA`; REXP and INV have no condition beyond the range; the other operations use no field. -/
def Instr.wellFormed : Instr → Bool
  | .qmul fa fb fy =>
    Count.legal fa && Count.legal fb && Count.legal fy && decide (fy.toNat ≤ fa.toNat + fb.toNat)
  | .qshr fa fy => Count.legal fa && Count.legal fy && decide (fy.toNat ≤ fa.toNat)
  | .qshl fa fy => Count.legal fa && Count.legal fy && decide (fa.toNat ≤ fy.toNat)
  | .rexp fa => Count.legal fa
  | .log10 => true
  | .sin => true
  | .asin => true
  | .inv fa fy => Count.legal fa && Count.legal fy
  | .log => true
  | .lin2db => true
  | .db2lin => true
  | .kneeexp => true
  | .pow => true

end Sys2Proof
end

