-- ==== Sys2Proof/Decode.lean ====
section
/-! DEFINITION. The command word: its fields, the decoder (checks 1 to 3 of `30_encoding.md` R62), the encoder. -/

namespace Sys2Proof

/-- `OP = CMD[3:0]` (`30_encoding.md` R56). -/
def opField (cmd : Word) : BitVec 4 := cmd.extractLsb' 0 4

/-- `FA = CMD[9:4]` (`30_encoding.md` R56). -/
def faField (cmd : Word) : Count := cmd.extractLsb' 4 6

/-- `FB = CMD[15:10]` (`30_encoding.md` R56). -/
def fbField (cmd : Word) : Count := cmd.extractLsb' 10 6

/-- `FY = CMD[21:16]` (`30_encoding.md` R56). -/
def fyField (cmd : Word) : Count := cmd.extractLsb' 16 6

/-- `RSV = CMD[31:22]` (`30_encoding.md` R56). -/
def rsvField (cmd : Word) : BitVec 10 := cmd.extractLsb' 22 10

/-- Check 3 of `30_encoding.md` R62: an operation is read only when its must-be-zero fields are zero (R60). -/
def unlessReserved (mustBeZero : List Count) (i : Instr) : Except CmdError Instr :=
  if mustBeZero.all (fun f => f == 0#6) then .ok i else .error .reservedField

/-- The decoder, total on every command word: `RSV` first, then `OP`, then the must-be-zero fields of `OP`
(`30_encoding.md` R58, R60, R62, R63). Check 4 of R62, parameter legality, is `Instr.wellFormed` and is made by each
operation before it starts (log 11). -/
def decode (cmd : Word) : Except CmdError Instr :=
  if rsvField cmd ≠ 0#10 then .error .reservedField
  else
    let fa := faField cmd
    let fb := fbField cmd
    let fy := fyField cmd
    match (opField cmd).toNat with
    | 0 => .ok (.qmul fa fb fy)
    | 1 => unlessReserved [fb] (.qshr fa fy)
    | 2 => unlessReserved [fb] (.qshl fa fy)
    | 3 => unlessReserved [fb, fy] (.rexp fa)
    | 4 => unlessReserved [fa, fb, fy] .log10
    | 5 => unlessReserved [fa, fb, fy] .sin
    | 6 => unlessReserved [fa, fb, fy] .asin
    | 7 => unlessReserved [fb] (.inv fa fy)
    | 8 => unlessReserved [fa, fb, fy] .log
    | 9 => unlessReserved [fa, fb, fy] .lin2db
    | 10 => unlessReserved [fa, fb, fy] .db2lin
    | 11 => unlessReserved [fa, fb, fy] .kneeexp
    | 12 => unlessReserved [fa, fb, fy] .pow
    | _ => .error .illegalOp

/-- The five fields each at its place (`30_encoding.md` R56). -/
def packCommand (rsv : BitVec 10) (fy fb fa : Count) (op : BitVec 4) : Word :=
  rsv.setWidth 32 <<< 22 ||| fy.setWidth 32 <<< 16 ||| fb.setWidth 32 <<< 10 ||| fa.setWidth 32 <<< 4 ||| op.setWidth 32

/-- The command word of an operation: its `OP` of `30_encoding.md` R58, its fields, zero elsewhere. -/
def encode : Instr → Word
  | .qmul fa fb fy => packCommand 0 fy fb fa 0
  | .qshr fa fy => packCommand 0 fy 0 fa 1
  | .qshl fa fy => packCommand 0 fy 0 fa 2
  | .rexp fa => packCommand 0 0 0 fa 3
  | .log10 => packCommand 0 0 0 0 4
  | .sin => packCommand 0 0 0 0 5
  | .asin => packCommand 0 0 0 0 6
  | .inv fa fy => packCommand 0 fy 0 fa 7
  | .log => packCommand 0 0 0 0 8
  | .lin2db => packCommand 0 0 0 0 9
  | .db2lin => packCommand 0 0 0 0 10
  | .kneeexp => packCommand 0 0 0 0 11
  | .pow => packCommand 0 0 0 0 12

/-- All four checks of `30_encoding.md` R62 in their order: the operation a command word starts, or the error it is
answered with. -/
def checkCommand (cmd : Word) : Except CmdError Instr :=
  match decode cmd with
  | .error c => .error c
  | .ok i => if i.wellFormed then .ok i else .error .badParam

/-- The operation the decoder reads from the low `nbits` bits of `w`, every higher bit zero; a command word crosses its
port whole, so there is no byte order (`20_memory.md` R43). -/
def decodeTableWord (nbits w : Nat) : Option Instr :=
  match decode (BitVec.ofNat 32 (w % 2 ^ nbits)) with
  | .ok i => some i
  | .error _ => none

end Sys2Proof
end

