-- ==== Sys2Proof/Config.lean ====
section
/-! DEFINITION. The open parameters of QMATH: the two external collaborators, uninterpreted (`10_state.md` R32, D29). -/

namespace Sys2Proof

/-- The exponential approximator `ext_exp` (`00_scope.md` R5, R18): a total function of the argument alone, of which
nothing else is assumed (`10_state.md` R32). No body: no statement can rest on a value of it (log 6). -/
opaque Config.extExp : Word → Word

/-- The decibel-to-linear approximator `ext_db2lin` (`00_scope.md` R5, R18), likewise uninterpreted (log 6). -/
opaque Config.extDb2lin : Word → Word

end Sys2Proof
end

