-- ==== Sys2Proof/Machine/State.lean ====
section
/-! DEFINITION. The state of QMATH, what the outside world can do to it, and the state after reset. -/

namespace Sys2Proof.Machine

/-- The only control state (`10_state.md` R23). -/
inductive Phase where
  /-- No request held; a request is accepted. -/
  | idle
  /-- The operation of `CMD` is being computed. -/
  | exec
  /-- The external request has been issued and not answered. -/
  | waitExt
  /-- `Y`, `E`, `STATUS` hold a response that is offered. -/
  | resp
  deriving DecidableEq, Repr

/-- The collaborator that an external call is made to (`43_composition.md` R140). The bit that the port drives for it is
`extSelCode` (`30_encoding.md` R68). -/
inductive ExtSel where
  /-- `EXP`, the exponential approximator. -/
  | exp
  /-- `DB2LIN`, the decibel-to-linear approximator. -/
  | db2lin
  deriving DecidableEq, Repr

/-- One outgoing transfer on the external port (`30_encoding.md` R68). -/
structure ExtRequest where
  /-- The collaborator, `EXT_SEL` by `extSelCode`. -/
  sel : ExtSel
  /-- `EXT_ARG`. -/
  arg : Word
  deriving DecidableEq, Repr

/-- The three words of a request, always together (`30_encoding.md` R55; `20_memory.md` R45). -/
structure Request where
  /-- The command word. -/
  cmd : Word
  /-- Operand A. -/
  a : Word
  /-- Operand B. -/
  b : Word
  deriving DecidableEq, Repr

/-- The three values of a response, always together (`30_encoding.md` R57; `20_memory.md` R45). -/
structure Response where
  /-- The result raw. -/
  y : Word
  /-- The exponent of REXP, zero otherwise. -/
  e : ExpByte
  /-- 0 `OK`, 1 `ILLEGAL_OP`, 2 `RESERVED_FIELD`, 3 `BAD_PARAM`. -/
  status : StatusBits
  deriving DecidableEq, Repr

/-- What the outside world does at one instant at which the block looks at its ports (log 4). -/
inductive Event where
  /-- The host drives valid on the request port with these three words (`30_encoding.md` R67). -/
  | request (r : Request)
  /-- The collaborator answers the call that is outstanding (`43_composition.md` R142). -/
  | extAnswer
  /-- An answer that belongs to no outstanding call: a second answer, or one to a call that a reset abandoned
  (`70_reset_and_hazards.md` R171, R175 e; log 7). -/
  | strayAnswer (v : Word)
  /-- The host drives ready on the response port (`30_encoding.md` R67). -/
  | take
  /-- Reset is asserted (`70_reset_and_hazards.md` R170). -/
  | reset
  deriving DecidableEq, Repr

/-- The state of the block (`10_state.md` R21 to R23, R29), with the outside world's moves to come. -/
structure State where
  /-- `PHASE` (R23). -/
  phase : Phase
  /-- `CMD` (R21). -/
  cmd : Word
  /-- `A` (R21). -/
  a : Word
  /-- `B` (R21). -/
  b : Word
  /-- `Y` (R22). -/
  y : Word
  /-- `E` (R22). -/
  e : ExpByte
  /-- `STATUS` (R22). -/
  status : StatusBits
  /-- The external request that is outstanding, none when the port is not requesting (`30_encoding.md` R68; R33). -/
  ext : Option ExtRequest
  /-- The model's own field: what the outside world does from now on, oldest first (log 4). -/
  inputs : List Event
  deriving DecidableEq, Repr

/-- Why a read of the block by the host stops. No step of the block ends in a fault: every command error is an ordinary
response (`60_exceptions.md` R151). -/
inductive Fault where
  /-- Raised by `readResponse`, when a response is read while none is offered (`10_state.md` R34, which allows "a fault
  on read"). Safe: no value is made up. -/
  | responseNotOffered
  deriving DecidableEq, Repr

/-- Why the model gives an operation no meaning. -/
inductive Refusal where
  /-- Raised by an arm of `exec` whose operation has no meaning yet. Safe. No arm raises it. -/
  | notModelled (mnemonic : String)
  deriving DecidableEq, Repr

/-- The state after reset (`10_state.md` R33; `70_reset_and_hazards.md` R170): IDLE, the external port not requesting.
The six data registers are unspecified there; the zeros are DESIGN CHOICE (log 1, log 2), and so is the empty list of
inputs (log 4). -/
def State.reset : State where
  phase := .idle
  cmd := 0
  a := 0
  b := 0
  y := 0
  e := 0
  status := 0
  ext := none
  inputs := []

end Sys2Proof.Machine
end

