-- ==== Sys2Proof/Machine/Flags.lean ====
section
/-! DEFINITION. The block has no flags (`10_state.md` R26); what it reports is the `STATUS` of a response, computed here. -/

namespace Sys2Proof.Machine

/-- `STATUS = 0`, `OK` (`60_exceptions.md` R150). -/
def statusOk : StatusBits := 0#2

/-- The `STATUS` code of a command error (`60_exceptions.md` R150). -/
def errorStatus : CmdError → StatusBits
  | .illegalOp => 1#2
  | .reservedField => 2#2
  | .badParam => 3#2

end Sys2Proof.Machine
end

