-- ==== Sys2Proof/Machine/Operands.lean ====
section
/-! DEFINITION. Operand reads and the integer arithmetic every operation is written in (`00_scope.md` R9 to R15). -/

namespace Sys2Proof.Machine

/-- Operand `A`, taken whole (`30_encoding.md` R59). -/
def operandA (s : State) : Word := s.a

/-- Operand `B`, taken whole (`30_encoding.md` R59). -/
def operandB (s : State) : Word := s.b

/-- `wrap32(v)`: the low 32 bits of the integer `v` (`00_scope.md` R13); as a signed number, its `toInt`. -/
def wrap32 (v : Int) : Word := BitVec.ofInt 32 v

/-- `x << n = x * 2^n` on unbounded integers (`00_scope.md` R10). -/
def shl (x : Int) (n : Nat) : Int := x * (2 ^ n : Nat)

/-- `rnd_shr(v, s)`: `v` for `s = 0`, else `floor((v + 2^(s-1)) / 2^s)` (`00_scope.md` R14). The divisor is positive, so
`Int` division is the floor. -/
def rndShr (v : Int) (s : Nat) : Int :=
  if s = 0 then v else (v + (2 ^ (s - 1) : Nat)) / (2 ^ s : Nat)

/-- `add32(a, b) = wrap32(a + b)` (`00_scope.md` R15). -/
def add32 (x z : Word) : Word := wrap32 (x.toInt + z.toInt)

/-- `sext_8(e)` as it stands in the 8-bit field `E` (`00_scope.md` R10; `30_encoding.md` R57). -/
def expField (e : Int) : ExpByte := BitVec.ofInt 8 e

/-- The build-time constant conversion: `q = fixed(r, f) = floor(r * 2^f + 1/2)` for a real `r` (`00_scope.md` R19;
`40_qarith.md` R76). It is written as the graph of the conversion because a real number is no data that a machine
computes with. No operation uses it (R77); it says where the constant table comes from. -/
def IsFixed (r : ℝ) (f : Nat) (q : Int) : Prop := q = ⌊r * 2 ^ f + 1 / 2⌋

/-- `fixed(r, f)` of the rational `r = num / den`, in integers (`00_scope.md` R19; `40_qarith.md` R76). -/
def fixedRat (num : Int) (den f : Nat) : Int :=
  (2 * num * (2 ^ f : Nat) + den) / (2 * den : Nat)

end Sys2Proof.Machine
end

