-- ==== Sys2Proof/Machine/Ops.lean ====
section
/-! DEFINITION. The moves of the block: producing a response, a command error, an external call; accepting, answering, taking, resetting. -/

namespace Sys2Proof.Machine

/-- The completion of an operation or of an error: the three response registers change together and the response is
offered (`10_state.md` R22, R23; `20_memory.md` R45). -/
def respond (r : Response) (s : State) : State :=
  { s with phase := .resp, y := r.y, e := r.e, status := r.status }

/-- The completion of a legal operation: `Y <- y; E <- e; STATUS <- 0`. -/
def complete (y : Word) (e : ExpByte) (s : State) : State := respond ⟨y, e, statusOk⟩ s

/-- `raise CmdError(code)`, the one exceptional outcome: an ordinary response with `Y = 0`, `E = 0`; nothing is saved,
nothing else changes, no external call is made (`00_scope.md` R17; `60_exceptions.md` R151, R152, R158). -/
def raiseCmdError (c : CmdError) (s : State) : State := respond ⟨0, 0, errorStatus c⟩ s

/-- `ExtCall` issued: one request on the external port, and the block waits (`10_state.md` R23; `43_composition.md`
R140). -/
def issueCall (sel : ExtSel) (arg : Word) (s : State) : State :=
  { s with phase := .waitExt, ext := some ⟨sel, arg⟩ }

/-- Check 4 of `30_encoding.md` R62: the operation `i` ends in `t` when its parameters are legal (R61), else in
`CmdError(3)`. -/
def whenLegal (i : Instr) (t s : State) : Host.Outcome State Fault Refusal :=
  .next (if i.wellFormed then t else raiseCmdError .badParam s)

/-- The bit `EXT_SEL` of a collaborator: 0 for `EXP`, 1 for `DB2LIN` (`30_encoding.md` R68; `43_composition.md` R140). -/
def extSelCode (sel : ExtSel) : SelBit :=
  match sel with
  | .exp => 0#1
  | .db2lin => 1#1

/-- What the block drives on the external port: `EXT_SEL` and `EXT_ARG` of the outstanding call, nothing when the port
is not requesting (`30_encoding.md` R68; `10_state.md` R33; `43_composition.md` R140). -/
def extPort (s : State) : Option (SelBit × Word) := s.ext.map (fun c => (extSelCode c.sel, c.arg))

/-- `EXT_VAL`: what comes back for a transfer with these lines. The selector bit picks the collaborator
(`30_encoding.md` R68; `43_composition.md` R140). -/
def extAnswerOf (sel : SelBit) (arg : Word) : Word :=
  if sel = 0#1 then Config.extExp arg else Config.extDb2lin arg

/-- The value of an external call: the answer to the transfer that it drives (`00_scope.md` R18; `43_composition.md`
R140). -/
def extValue (c : ExtRequest) : Word := extAnswerOf (extSelCode c.sel) c.arg

/-- The acceptance of a request, in IDLE only: `CMD`, `A`, `B` are loaded at one instant; a request presented at any
other time is ignored (`10_state.md` R21, R23; `70_reset_and_hazards.md` R175 a, b). -/
def acceptRequest (r : Request) (s : State) : State :=
  match s.phase with
  | .idle => { s with phase := .exec, cmd := r.cmd, a := r.a, b := r.b }
  | .exec => s
  | .waitExt => s
  | .resp => s

/-- The answer to the outstanding call, in WAIT_EXT only: it becomes `Y` unchanged, and the response is offered; with no
call outstanding an answer is ignored (`43_composition.md` R135 to R139, R142; `70_reset_and_hazards.md` R175 e). -/
def receiveAnswer (s : State) : State :=
  match s.phase, s.ext with
  | .waitExt, some c => complete (extValue c) 0 { s with ext := none }
  | .waitExt, none => s
  | .idle, _ => s
  | .exec, _ => s
  | .resp, _ => s

/-- The host takes the response, in RESP only: only `PHASE` changes (`20_memory.md` R45); this is also the whole of
leaving an error (`60_exceptions.md` R159). -/
def takeResponse (s : State) : State :=
  match s.phase with
  | .resp => { s with phase := .idle }
  | .idle => s
  | .exec => s
  | .waitExt => s

/-- Reset from any phase: the operation in progress and its external call are abandoned, a response on offer is
withdrawn (`70_reset_and_hazards.md` R170, R171). The data registers, unspecified there, take the values of
`State.reset` (log 3); what the outside does next is no part of the block and stays. -/
def resetBlock (s : State) : State := { State.reset with inputs := s.inputs }

/-- What one event of the outside world does to a block that is not computing. -/
def deliver (ev : Event) (s : State) : State :=
  match ev with
  | .request r => acceptRequest r s
  | .extAnswer => receiveAnswer s
  | .strayAnswer _ => s
  | .take => takeResponse s
  | .reset => resetBlock s

/-- The request port's ready line: asserted exactly in IDLE (`30_encoding.md` R67). -/
def requestReady (s : State) : Bool := s.phase == .idle

/-- The response port's valid line: asserted exactly in RESP (`30_encoding.md` R67). -/
def responseValid (s : State) : Bool := s.phase == .resp

/-- What the host reads on the response port. There is no value outside RESP: a fault on read (`10_state.md` R34; log 9). -/
def readResponse (s : State) : Except Fault Response :=
  if responseValid s then .ok ⟨s.y, s.e, s.status⟩ else .error .responseNotOffered

/-- The next state of an outcome, if it is one. -/
def nextOf (o : Host.Outcome State Fault Refusal) : Option State :=
  match o with
  | .next t => some t
  | .fault _ => none
  | .refused _ => none

end Sys2Proof.Machine
end

