-- ==== Sys2Proof/Machine/Qarith.lean ====
section
/-! DEFINITION. The Q-format rescaler: `qmul`, `qshr`, `qshl` and the operations QMUL, QSHR, QSHL (`40_qarith.md`). -/

namespace Sys2Proof.Machine

/-- `qmul`: exact product, one rounding shift by `fa + fb - fy`, low 32 bits (`40_qarith.md` R78). Every use has
`fy <= fa + fb`. -/
def qmul (x z : Word) (fa fb fy : Nat) : Word := wrap32 (rndShr (x.toInt * z.toInt) (fa + fb - fy))

/-- `qshr`: rounding shift from `src` to `dst <= src` fractional bits (`40_qarith.md` R82). -/
def qshr (x : Word) (src dst : Nat) : Word := wrap32 (rndShr x.toInt (src - dst))

/-- `qshl`: exact shift from `src` to `dst >= src` fractional bits, low 32 bits (`40_qarith.md` R85). -/
def qshl (x : Word) (src dst : Nat) : Word := wrap32 (shl x.toInt (dst - src))

/-- QMUL (`40_qarith.md` R78). -/
def execQmul (fa fb fy : Count) (s : State) : Host.Outcome State Fault Refusal :=
  whenLegal (.qmul fa fb fy) (complete (qmul (operandA s) (operandB s) fa.toNat fb.toNat fy.toNat) 0 s) s

/-- QSHR (`40_qarith.md` R82). -/
def execQshr (fa fy : Count) (s : State) : Host.Outcome State Fault Refusal :=
  whenLegal (.qshr fa fy) (complete (qshr (operandA s) fa.toNat fy.toNat) 0 s) s

/-- QSHL (`40_qarith.md` R85). -/
def execQshl (fa fy : Count) (s : State) : Host.Outcome State Fault Refusal :=
  whenLegal (.qshl fa fy) (complete (qshl (operandA s) fa.toNat fy.toNat) 0 s) s

end Sys2Proof.Machine
end

