-- ==== Sys2Proof/Machine/RangeReducer.lean ====
section
/-! DEFINITION. The range reducer: the bit scan, mantissa and exponent, and the operation REXP (`41_range_reducer.md`). -/

namespace Sys2Proof.Machine

/-- The loop of `41_range_reducer.md` R91 with the position counter at its second argument: the counter is one more than
the index of the bit under test, and the scan ends at 0. -/
def scanFrom (x : Word) : Nat → Nat
  | 0 => 0
  | n + 1 => if x.getLsbD n then n + 1 else scanFrom x n

/-- `scan(x)`: from position 31 (bit 30) downward; bit 31 is never matched (`41_range_reducer.md` R91, R98). -/
def scan (x : Word) : Nat := scanFrom x 31

/-- The mantissa: `x` as a value with `scan x` fractional bits, moved to 30 (`41_range_reducer.md` R92). -/
def mantissa (x : Word) : Word :=
  if 30 < scan x then qshr x (scan x) 30
  else if scan x < 30 then qshl x (scan x) 30
  else x

/-- The exponent `e = bit - precision_x` (`41_range_reducer.md` R93). -/
def exponent (x : Word) (px : Nat) : Int := (scan x : Int) - px

/-- REXP (`41_range_reducer.md` R90). -/
def execRexp (fa : Count) (s : State) : Host.Outcome State Fault Refusal :=
  whenLegal (.rexp fa)
    (complete (mantissa (operandA s)) (expField (exponent (operandA s) fa.toNat)) s) s

end Sys2Proof.Machine
end

