-- ==== Sys2Proof/Machine/Rom.lean ====
section
/-! DEFINITION. The constant table `ROM` (`10_state.md` R30, R31): data, not state, addressed only by name (`20_memory.md` R41). -/

namespace Sys2Proof.Machine

/-- The 32 names of the constant table (`10_state.md` R30). -/
inductive RomName where
  | log10A5 | log10A4 | log10A3 | log10A2 | log10A1 | log10A0 | log10Of2
  | sinA7 | sinA5 | sinA3 | sinA1
  | asinA7L | asinA5L | asinA3L | asinA1L
  | asinA7H | asinA5H | asinA3H | asinA1H
  | invA5 | invA4 | invA3 | invA2 | invA1 | invA0
  | ln10 | twenty | sentLog | sentDb
  | oneOverSqrt2 | sqrt2 | twoOverPi
  deriving DecidableEq, Repr

/-- `ROM[name]`: the hex column of `10_state.md` R30, which R31 makes the normative form. -/
def rom : RomName → Word
  | .log10A5 => 0x04870BA0#32
  | .log10A4 => 0xEEF71D20#32
  | .log10A3 => 0x1B43E840#32
  | .log10A2 => 0xE7869580#32
  | .log10A1 => 0x0E9A23B0#32
  | .log10A0 => 0xFB20E060#32
  | .log10Of2 => 0x01344135#32
  | .sinA7 => 0xFFB901F0#32
  | .sinA5 => 0x05157358#32
  | .sinA3 => 0xD6A9B140#32
  | .sinA1 => 0x6487D700#32
  | .asinA7L => 0x07904E08#32
  | .asinA5L => 0x02930944#32
  | .asinA3L => 0x0B052761#32
  | .asinA1L => 0x3FFC3BFF#32
  | .asinA7H => 0x3882D000#32
  | .asinA5H => 0x8752AA80#32
  | .asinA3H => 0x55E77C80#32
  | .asinA1H => 0xF06BF020#32
  | .invA5 => 0xFA83C3B0#32
  | .invA4 => 0x1C06CC60#32
  | .invA3 => 0xC482BD00#32
  | .invA2 => 0x4324E800#32
  | .invA1 => 0xD57FD700#32
  | .invA0 => 0x0E4DF3D0#32
  | .ln10 => 0x49AEC6EF#32
  | .twenty => 0x50000000#32
  | .sentLog => 0x88000000#32
  | .sentDb => 0x83000000#32
  | .oneOverSqrt2 => 0x2D413CCD#32
  | .sqrt2 => 0x5A82799A#32
  | .twoOverPi => 0x28BE60DC#32

/-- An entry of the `real value` column of `10_state.md` R30: a decimal as the source prints it, numerator over
denominator, or a constant that the source names by a symbol. -/
inductive RomReal where
  | decimal (num : Int) (den : Nat)
  /-- `1/sqrt 2`. -/
  | oneOverSqrt2
  /-- `sqrt 2`. -/
  | sqrt2
  /-- `2/pi`. -/
  | twoOverPi
  deriving DecidableEq, Repr

/-- The real number that an entry of the column stands for: "those digits are `r` exactly as printed", and for a symbol
"`r` is the mathematical constant" (`10_state.md` R30). -/
def RomReal.Denotes (c : RomReal) (r : ℝ) : Prop :=
  match c with
  | .decimal num den => r = num / den
  | .oneOverSqrt2 => r = 1 / Real.sqrt 2
  | .sqrt2 => r = Real.sqrt 2
  | .twoOverPi => r = 2 / Real.pi

/-- The real value and format columns of `10_state.md` R30: the value and its fractional-bit count. -/
def romSource : RomName → RomReal × Nat
  | .log10A5 => (.decimal 1131880283 1000000000, 26)
  | .log10A4 => (.decimal (-4258677959) 1000000000, 26)
  | .log10A3 => (.decimal 6816315651 1000000000, 26)
  | .log10A2 => (.decimal (-6118570328) 1000000000, 26)
  | .log10A1 => (.decimal 3650526762 1000000000, 26)
  | .log10A0 => (.decimal (-1217894077) 1000000000, 26)
  | .log10Of2 => (.decimal 301029996 1000000000, 26)
  | .sinA7 => (.decimal (-43330337) 10000000000, 30)
  | .sinA5 => (.decimal 79434238 1000000000, 30)
  | .sinA3 => (.decimal (-645892799) 1000000000, 30)
  | .sinA1 => (.decimal 1570791006 1000000000, 30)
  | .asinA7L => (.decimal 118182667 1000000000, 30)
  | .asinA5L => (.decimal 40224377 1000000000, 30)
  | .asinA3L => (.decimal 172189564 1000000000, 30)
  | .asinA1L => (.decimal 999770164 1000000000, 30)
  | .asinA7H => (.decimal 14127746582 1000000000, 26)
  | .asinA5H => (.decimal (-30169271469) 1000000000, 26)
  | .asinA3H => (.decimal 21476060867 1000000000, 26)
  | .asinA1H => (.decimal (-3894591808) 1000000000, 26)
  | .invA5 => (.decimal (-2742647648) 1000000000, 25)
  | .invA4 => (.decimal 14013278008 1000000000, 25)
  | .invA3 => (.decimal (-29744651794) 1000000000, 25)
  | .invA2 => (.decimal 33572082520 1000000000, 25)
  | .invA1 => (.decimal (-21250312805) 1000000000, 25)
  | .invA0 => (.decimal 7152250767 1000000000, 25)
  | .ln10 => (.decimal 2302585093 1000000000, 29)
  | .twenty => (.decimal 20 1, 26)
  | .sentLog => (.decimal (-30) 1, 26)
  | .sentDb => (.decimal (-1000) 1, 21)
  | .oneOverSqrt2 => (.oneOverSqrt2, 30)
  | .sqrt2 => (.sqrt2, 30)
  | .twoOverPi => (.twoOverPi, 30)

end Sys2Proof.Machine
end

