-- ==== Sys2Proof/Machine/Polynomial.lean ====
section
/-! DEFINITION. The minimax polynomial evaluator: the Horner datapath and LOG10, SIN, ASIN, INV (`42_polynomial.md`). -/

namespace Sys2Proof.Machine

/-- One Horner step: the product rounded once to `fc` fractional bits, then a wrapping add (`42_polynomial.md` R101). -/
def hornerStep (acc t c : Word) (fc ft : Nat) : Word := add32 (qmul acc t fc ft fc) c

/-- Horner's rule from the highest coefficient down (`42_polynomial.md` R101, D22). -/
def horner (cn : Word) (cs : List Word) (t : Word) (fc ft : Nat) : Word :=
  cs.foldl (fun acc c => hornerStep acc t c fc ft) cn

/-- The fold of LOG10: a mantissa above 1/sqrt 2 is multiplied by it and one half-step is added to the doubled exponent
(`42_polynomial.md` R104, R106). -/
def log10Reduce (x : Word) : Word × Int :=
  let m := mantissa x
  let exp2 := 2 * exponent x 26
  if (rom .oneOverSqrt2).toInt < m.toInt then (qmul m (rom .oneOverSqrt2) 30 30 30, exp2 + 1)
  else (m, exp2)

/-- The `Y` of LOG10 (`42_polynomial.md` R104), with the zero policy of R105. -/
def log10Value (x : Word) : Word :=
  if x = 0 then 0x80000000#32
  else
    let r := log10Reduce x
    let acc := horner (rom .log10A5)
      [rom .log10A4, rom .log10A3, rom .log10A2, rom .log10A1, rom .log10A0] r.1 26 30
    add32 acc (qmul (wrap32 r.2) (rom .log10Of2) 1 26 26)

/-- The accumulator of SIN, a function of the squared operand (`42_polynomial.md` R102, R110). -/
def sinAcc (x : Word) : Word :=
  horner (rom .sinA7) [rom .sinA5, rom .sinA3, rom .sinA1] (qmul x x 30 30 30) 30 30

/-- The `Y` of SIN (`42_polynomial.md` R110). -/
def sinValue (x : Word) : Word := qmul (sinAcc x) x 30 30 30

/-- ASIN takes the low branch exactly for `-C <= A <= C` (`42_polynomial.md` R114, R115). -/
def asinIsLow (x : Word) : Bool :=
  decide (-(rom .oneOverSqrt2).toInt ≤ x.toInt ∧ x.toInt ≤ (rom .oneOverSqrt2).toInt)

/-- The low branch of ASIN, in Q2.30 (`42_polynomial.md` R114, R116). -/
def asinLow (x : Word) : Word :=
  let x2 := qmul x x 30 30 30
  let acc := horner (rom .asinA7L) [rom .asinA5L, rom .asinA3L, rom .asinA1L] x2 30 30
  qmul (qmul acc x 30 30 30) (rom .twoOverPi) 30 30 30

/-- The high branch of ASIN, in Q6.26 (`42_polynomial.md` R114, R117). -/
def asinHigh (x : Word) : Word :=
  let xh := qshr x 30 26
  let x2h := qmul xh xh 26 26 26
  let acc := horner (rom .asinA7H) [rom .asinA5H, rom .asinA3H, rom .asinA1H] x2h 26 26
  qmul (qmul acc xh 26 26 26) (rom .twoOverPi) 26 30 30

/-- The `Y` of ASIN (`42_polynomial.md` R114). -/
def asinValue (x : Word) : Word := if asinIsLow x then asinLow x else asinHigh x

/-- The flag `sq` of INV: the mantissa is below 1/sqrt 2 (`42_polynomial.md` R120, R122). -/
def invTakesRoot (x : Word) : Bool := decide ((mantissa x).toInt < (rom .oneOverSqrt2).toInt)

/-- The mantissa that INV's polynomial sees (`42_polynomial.md` R120, R122). -/
def invReduce (x : Word) : Word :=
  if invTakesRoot x then qmul (mantissa x) (rom .sqrt2) 30 30 30 else mantissa x

/-- The reciprocal of the mantissa in Q7.25, the factor sqrt 2 undone (`42_polynomial.md` R120, R123). -/
def invAcc (x : Word) : Word :=
  let acc := horner (rom .invA5)
    [rom .invA4, rom .invA3, rom .invA2, rom .invA1, rom .invA0] (invReduce x) 25 30
  if invTakesRoot x then qmul acc (rom .sqrt2) 25 30 25 else acc

/-- The final move of INV from `pinv` to `fy` fractional bits: rounding right shift, left shift or nothing, shift counts
unbounded (`42_polynomial.md` R120, R124). -/
def invRescale (acc : Word) (pinv fy : Int) : Word :=
  if fy < pinv then wrap32 (rndShr acc.toInt (pinv - fy).toNat)
  else if pinv < fy then wrap32 (shl acc.toInt (fy - pinv).toNat)
  else acc

/-- The `Y` of INV (`42_polynomial.md` R120), with the zero policy of R121. -/
def invValue (x : Word) (px py : Nat) : Word :=
  if x = 0 then 0x7FFFFFFF#32 else invRescale (invAcc x) (exponent x px + 25) py

/-- LOG10 (`42_polynomial.md` R104). -/
def execLog10 (s : State) : Host.Outcome State Fault Refusal :=
  .next (complete (log10Value (operandA s)) 0 s)

/-- SIN (`42_polynomial.md` R110). -/
def execSin (s : State) : Host.Outcome State Fault Refusal :=
  .next (complete (sinValue (operandA s)) 0 s)

/-- ASIN (`42_polynomial.md` R114). -/
def execAsin (s : State) : Host.Outcome State Fault Refusal :=
  .next (complete (asinValue (operandA s)) 0 s)

/-- INV (`42_polynomial.md` R120). -/
def execInv (fa fy : Count) (s : State) : Host.Outcome State Fault Refusal :=
  whenLegal (.inv fa fy) (complete (invValue (operandA s) fa.toNat fy.toNat) 0 s) s

end Sys2Proof.Machine
end

