-- ==== Sys2Proof/Machine/Composition.lean ====
section
/-! DEFINITION. The composition multiplexer: LOG, LIN2DB, DB2LIN, KNEEEXP, POW (`43_composition.md`). -/

namespace Sys2Proof.Machine

/-- The `Y` of LOG: the sentinel for a non-positive operand, else one multiply-rescale of LOG10 (`43_composition.md`
R131). -/
def logValue (x : Word) : Word :=
  if x.toInt ≤ 0 then rom .sentLog else qmul (log10Value x) (rom .ln10) 26 29 26

/-- The `Y` of LIN2DB: the sentinel for a non-positive operand, else one multiply-rescale of LOG10 (`43_composition.md`
R133). -/
def lin2dbValue (x : Word) : Word :=
  if x.toInt ≤ 0 then rom .sentDb else qmul (rom .twenty) (log10Value x) 26 26 21

/-- The argument POW sends to the exponential approximator, `y * ln(x)` in Q5.27 (`43_composition.md` R139). -/
def powArg (x y : Word) : Word := qmul y (logValue x) 30 26 27

/-- LOG (`43_composition.md` R131). -/
def execLog (s : State) : Host.Outcome State Fault Refusal :=
  .next (complete (logValue (operandA s)) 0 s)

/-- LIN2DB (`43_composition.md` R133). -/
def execLin2db (s : State) : Host.Outcome State Fault Refusal :=
  .next (complete (lin2dbValue (operandA s)) 0 s)

/-- DB2LIN: the operand goes out unchanged; the answer becomes `Y` by `receiveAnswer` (`43_composition.md` R135). -/
def execDb2lin (s : State) : Host.Outcome State Fault Refusal :=
  .next (issueCall .db2lin (operandA s) s)

/-- KNEEEXP: the operand goes out unchanged; the answer becomes `Y` by `receiveAnswer` (`43_composition.md` R137). -/
def execKneeexp (s : State) : Host.Outcome State Fault Refusal :=
  .next (issueCall .exp (operandA s) s)

/-- POW: one call of the exponential approximator, on LOG's sentinel path too; the answer becomes `Y` by
`receiveAnswer` (`43_composition.md` R139, R143). -/
def execPow (s : State) : Host.Outcome State Fault Refusal :=
  .next (issueCall .exp (powArg (operandA s) (operandB s)) s)

end Sys2Proof.Machine
end

