-- ==== Sys2Proof/Machine/Dispatch.lean ====
section
/-! DEFINITION. One arm per operation: the meaning of each constructor of Instr. -/

namespace Sys2Proof.Machine

def exec (i : Instr) (s : State) : Host.Outcome State Fault Refusal :=
  match i with
  | .qmul fa fb fy => Sys2Proof.Machine.execQmul fa fb fy s
  | .qshr fa fy => Sys2Proof.Machine.execQshr fa fy s
  | .qshl fa fy => Sys2Proof.Machine.execQshl fa fy s
  | .rexp fa => Sys2Proof.Machine.execRexp fa s
  | .log10 => Sys2Proof.Machine.execLog10 s
  | .sin => Sys2Proof.Machine.execSin s
  | .asin => Sys2Proof.Machine.execAsin s
  | .inv fa fy => Sys2Proof.Machine.execInv fa fy s
  | .log => Sys2Proof.Machine.execLog s
  | .lin2db => Sys2Proof.Machine.execLin2db s
  | .db2lin => Sys2Proof.Machine.execDb2lin s
  | .kneeexp => Sys2Proof.Machine.execKneeexp s
  | .pow => Sys2Proof.Machine.execPow s

end Sys2Proof.Machine
end

