-- ==== Sys2Proof/Machine/Cycle.lean ====
section
/-! DEFINITION. What the block does at one instant: running the command it holds, or looking at its ports. -/

namespace Sys2Proof.Machine

/-- EXEC: the command word is decoded; the operation it selects runs, or its error is raised (`30_encoding.md` R62). -/
def runCommand (s : State) : Host.Outcome State Fault Refusal :=
  match decode s.cmd with
  | .ok i => exec i s
  | .error c => .next (raiseCmdError c s)

/-- Reset is asserted at this instant. -/
def resetAsserted (s : State) : Bool := s.inputs.head? == some .reset

/-- A block that is not computing looks at its ports: the oldest event happens, and with none it waits unchanged
(`43_composition.md` R142; `60_exceptions.md` R165; log 4). -/
def takeInput (s : State) : State :=
  match s.inputs with
  | [] => s
  | ev :: rest => deliver ev { s with inputs := rest }

/-- One instant: an asserted reset wins in every phase (`70_reset_and_hazards.md` R170, R171); in EXEC the block moves
without any outside event (R177; log 5); in the other phases only an outside event moves it (`10_state.md` R23). -/
def advance (s : State) : Host.Outcome State Fault Refusal :=
  if resetAsserted s then .next (takeInput s)
  else
    match s.phase with
    | .exec => runCommand s
    | .idle => .next (takeInput s)
    | .waitExt => .next (takeInput s)
    | .resp => .next (takeInput s)

/-- The state in which the request with command word `cmd` has just been accepted and no reset is asserted. -/
def holdCommand (cmd : Word) (s : State) : State :=
  { s with phase := .exec, cmd := cmd, inputs := s.inputs.dropWhile (fun ev => ev == .reset) }

end Sys2Proof.Machine
end

