-- ==== Sys2Proof/Machine/Step.lean ====
section
/-! DEFINITION. One step of the block, and the state whose next step runs a given command word. -/

namespace Sys2Proof.Machine

/-- One instant of the block: what `advance` says. -/
def step (s : State) : Host.Outcome State Fault Refusal := advance s

/-- `s` with the low `nbits` bits of `w` as the accepted command word: the block fetches nothing, an operation runs
because a request is accepted, and this stands for that acceptance (log 10). `A` and `B` stay as they are. -/
def State.withFetchWord (s : State) (nbits w : Nat) : State :=
  holdCommand (BitVec.ofNat 32 (w % 2 ^ nbits)) s

end Sys2Proof.Machine
end

