-- ==== Sys2Proof/Laws/Decode.lean ====
section
/-! SUPPORT. The fields of a packed command word, a command word as the pack of its fields, and when the decoder accepts. -/

namespace Sys2Proof

@[simp] theorem opField_packCommand (rsv : BitVec 10) (fy fb fa : Count) (op : BitVec 4) :
    opField (packCommand rsv fy fb fa op) = op := by
  ext j hj
  simp [opField, packCommand]
  grind

@[simp] theorem faField_packCommand (rsv : BitVec 10) (fy fb fa : Count) (op : BitVec 4) :
    faField (packCommand rsv fy fb fa op) = fa := by
  ext j hj
  simp [faField, packCommand]
  grind

@[simp] theorem fbField_packCommand (rsv : BitVec 10) (fy fb fa : Count) (op : BitVec 4) :
    fbField (packCommand rsv fy fb fa op) = fb := by
  ext j hj
  simp [fbField, packCommand]
  grind

@[simp] theorem fyField_packCommand (rsv : BitVec 10) (fy fb fa : Count) (op : BitVec 4) :
    fyField (packCommand rsv fy fb fa op) = fy := by
  ext j hj
  simp [fyField, packCommand]
  grind

@[simp] theorem rsvField_packCommand (rsv : BitVec 10) (fy fb fa : Count) (op : BitVec 4) :
    rsvField (packCommand rsv fy fb fa op) = rsv := by
  ext j hj
  simp [rsvField, packCommand]
  grind

/-- A command word is the pack of its five fields (`30_encoding.md` R56). -/
theorem packCommand_fields (cmd : Word) :
    packCommand (rsvField cmd) (fyField cmd) (fbField cmd) (faField cmd) (opField cmd) = cmd := by
  ext j hj
  simp [opField, faField, fbField, fyField, rsvField, packCommand]
  grind

/-- The must-be-zero check accepts exactly when every field listed is zero, and then reads the operation given. -/
theorem unlessReserved_ok_iff (l : List Count) (i j : Instr) :
    unlessReserved l i = .ok j ↔ (∀ f ∈ l, f = 0) ∧ i = j := by
  by_cases h : l.all (fun f => f == 0#6) = true
  · have h' : ∀ f ∈ l, f = 0 := by simpa using h
    simp only [unlessReserved, h, if_true, Except.ok.injEq]
    exact ⟨fun hij => ⟨h', hij⟩, fun hij => hij.2⟩
  · have h' : ¬∀ f ∈ l, f = 0 := by simpa using h
    simp only [unlessReserved, h, Bool.false_eq_true, if_false, reduceCtorEq, false_iff]
    exact fun hij => h' hij.1

/-- The must-be-zero check rejects with `RESERVED_FIELD` and nothing else. -/
theorem unlessReserved_error_iff (l : List Count) (i : Instr) (c : CmdError) :
    unlessReserved l i = .error c ↔ (¬∀ f ∈ l, f = 0) ∧ c = .reservedField := by
  by_cases h : l.all (fun f => f == 0#6) = true
  · have h' : ∀ f ∈ l, f = 0 := by simpa using h
    simp only [unlessReserved, h, if_true, reduceCtorEq, false_iff]
    exact fun hc => hc.1 h'
  · have h' : ¬∀ f ∈ l, f = 0 := by simpa using h
    simp only [unlessReserved, h, Bool.false_eq_true, if_false, Except.error.injEq]
    exact ⟨fun hc => ⟨h', hc.symm⟩, fun hc => hc.2.symm⟩

end Sys2Proof
end

