-- ==== Sys2Proof/Laws/PerInstr.lean ====
section
/-! SUPPORT. Per-instruction families of statements about the operation as syntax: the encoded word meets its row of the opcode table. -/

namespace Sys2Proof.Laws

/-- The `OP` of `30_encoding.md` R58 and `opcode_table.json`. -/
def rowOp : Instr → BitVec 4
  | .qmul _ _ _ => 0#4
  | .qshr _ _ => 1#4
  | .qshl _ _ => 2#4
  | .rexp _ => 3#4
  | .log10 => 4#4
  | .sin => 5#4
  | .asin => 6#4
  | .inv _ _ => 7#4
  | .log => 8#4
  | .lin2db => 9#4
  | .db2lin => 10#4
  | .kneeexp => 11#4
  | .pow => 12#4

/-- The `must_be_zero` fields of the operation's row of `opcode_table.json`, `RSV` apart, read from a command word. -/
def rowMustBeZero (cmd : Word) : Instr → List Count
  | .qmul _ _ _ => []
  | .qshr _ _ => [fbField cmd]
  | .qshl _ _ => [fbField cmd]
  | .rexp _ => [fbField cmd, fyField cmd]
  | .log10 => [faField cmd, fbField cmd, fyField cmd]
  | .sin => [faField cmd, fbField cmd, fyField cmd]
  | .asin => [faField cmd, fbField cmd, fyField cmd]
  | .inv _ _ => [fbField cmd]
  | .log => [faField cmd, fbField cmd, fyField cmd]
  | .lin2db => [faField cmd, fbField cmd, fyField cmd]
  | .db2lin => [faField cmd, fbField cmd, fyField cmd]
  | .kneeexp => [faField cmd, fbField cmd, fyField cmd]
  | .pow => [faField cmd, fbField cmd, fyField cmd]

/-- The encoded operation has the fixed bits of its row: its `OP`, a zero `RSV`, zeros in the must-be-zero fields. -/
def TableRow.Statement (i : Instr) : Prop :=
  opField (encode i) = rowOp i ∧ rsvField (encode i) = 0 ∧ ∀ f ∈ rowMustBeZero (encode i) i, f = 0

theorem TableRow.qmul (fa fb fy : Count) : TableRow.Statement (.qmul fa fb fy) := by
  simp [TableRow.Statement, encode, rowOp, rowMustBeZero]

theorem TableRow.qshr (fa fy : Count) : TableRow.Statement (.qshr fa fy) := by
  simp [TableRow.Statement, encode, rowOp, rowMustBeZero]

theorem TableRow.qshl (fa fy : Count) : TableRow.Statement (.qshl fa fy) := by
  simp [TableRow.Statement, encode, rowOp, rowMustBeZero]

theorem TableRow.rexp (fa : Count) : TableRow.Statement (.rexp fa) := by
  simp [TableRow.Statement, encode, rowOp, rowMustBeZero]

theorem TableRow.log10 : TableRow.Statement .log10 := by
  simp [TableRow.Statement, encode, rowOp, rowMustBeZero]

theorem TableRow.sin : TableRow.Statement .sin := by
  simp [TableRow.Statement, encode, rowOp, rowMustBeZero]

theorem TableRow.asin : TableRow.Statement .asin := by
  simp [TableRow.Statement, encode, rowOp, rowMustBeZero]

theorem TableRow.inv (fa fy : Count) : TableRow.Statement (.inv fa fy) := by
  simp [TableRow.Statement, encode, rowOp, rowMustBeZero]

theorem TableRow.log : TableRow.Statement .log := by
  simp [TableRow.Statement, encode, rowOp, rowMustBeZero]

theorem TableRow.lin2db : TableRow.Statement .lin2db := by
  simp [TableRow.Statement, encode, rowOp, rowMustBeZero]

theorem TableRow.db2lin : TableRow.Statement .db2lin := by
  simp [TableRow.Statement, encode, rowOp, rowMustBeZero]

theorem TableRow.kneeexp : TableRow.Statement .kneeexp := by
  simp [TableRow.Statement, encode, rowOp, rowMustBeZero]

theorem TableRow.pow : TableRow.Statement .pow := by
  simp [TableRow.Statement, encode, rowOp, rowMustBeZero]

end Sys2Proof.Laws
end

