-- ==== Sys2Proof/Safety.lean ====
section
/-! DEFINITION. The terms claims are stated in: the pure function of one request, the order of the command checks, shapes of next states, the invariant. -/

namespace Sys2Proof.Machine

/-- Whether `OP` uses `FA`; where it does not, `FA` must be zero (`30_encoding.md` R58, R60). -/
def usesFa (op : Nat) : Bool := op ∈ [0, 1, 2, 3, 7]

/-- Whether `OP` uses `FB` (`30_encoding.md` R58, R60). -/
def usesFb (op : Nat) : Bool := op ∈ [0]

/-- Whether `OP` uses `FY` (`30_encoding.md` R58, R60). -/
def usesFy (op : Nat) : Bool := op ∈ [0, 1, 2, 7]

/-- The ordered list of `30_encoding.md` R62 on the fields of the command word: the first check that fails, if any. It
is written from R58, R61 and R62 alone and shares no text with `decode`. -/
def firstFailingCheck (cmd : Word) : Option CmdError :=
  let op := (opField cmd).toNat
  let fa := (faField cmd).toNat
  let fb := (fbField cmd).toNat
  let fy := (fyField cmd).toNat
  if (rsvField cmd).toNat ≠ 0 then some .reservedField
  else if op ∈ [13, 14, 15] then some .illegalOp
  else if (!usesFa op && fa != 0) || (!usesFb op && fb != 0) || (!usesFy op && fy != 0) then
    some .reservedField
  else if (usesFa op && decide (31 < fa)) || (usesFb op && decide (31 < fb))
      || (usesFy op && decide (31 < fy)) || (op == 0 && decide (fa + fb < fy))
      || (op == 1 && decide (fa < fy)) || (op == 2 && decide (fy < fa)) then
    some .badParam
  else none

/-- The external call of an operation, if it makes one: DB2LIN, KNEEEXP and POW make exactly one, the other ten none
(`43_composition.md` R143). -/
def externalCall (i : Instr) (x z : Word) : Option ExtRequest :=
  match i with
  | .qmul _ _ _ => none
  | .qshr _ _ => none
  | .qshl _ _ => none
  | .rexp _ => none
  | .log10 => none
  | .sin => none
  | .asin => none
  | .inv _ _ => none
  | .log => none
  | .lin2db => none
  | .db2lin => some ⟨.db2lin, x⟩
  | .kneeexp => some ⟨.exp, x⟩
  | .pow => some ⟨.exp, powArg x z⟩

/-- The response to one request as a function of the request and the two collaborators alone, which
`70_reset_and_hazards.md` R172 allows as the whole of the block; `x` is operand A and `z` operand B. -/
def execute (extExp extDb2lin : Word → Word) (cmd x z : Word) : Response :=
  match checkCommand cmd with
  | .error c => ⟨0, 0, errorStatus c⟩
  | .ok (.qmul fa fb fy) => ⟨qmul x z fa.toNat fb.toNat fy.toNat, 0, statusOk⟩
  | .ok (.qshr fa fy) => ⟨qshr x fa.toNat fy.toNat, 0, statusOk⟩
  | .ok (.qshl fa fy) => ⟨qshl x fa.toNat fy.toNat, 0, statusOk⟩
  | .ok (.rexp fa) => ⟨mantissa x, expField (exponent x fa.toNat), statusOk⟩
  | .ok .log10 => ⟨log10Value x, 0, statusOk⟩
  | .ok .sin => ⟨sinValue x, 0, statusOk⟩
  | .ok .asin => ⟨asinValue x, 0, statusOk⟩
  | .ok (.inv fa fy) => ⟨invValue x fa.toNat fy.toNat, 0, statusOk⟩
  | .ok .log => ⟨logValue x, 0, statusOk⟩
  | .ok .lin2db => ⟨lin2dbValue x, 0, statusOk⟩
  | .ok .db2lin => ⟨extDb2lin x, 0, statusOk⟩
  | .ok .kneeexp => ⟨extExp x, 0, statusOk⟩
  | .ok .pow => ⟨extExp (powArg x z), 0, statusOk⟩

/-- The block is computing and no reset is asserted: the next step runs the command it holds. -/
abbrev Executing (s : State) : Prop := s.phase = .exec ∧ resetAsserted s = false

/-- Every field but `OP` is zero, as an operation without parameters requires (`30_encoding.md` R58, R60). -/
abbrev FieldsZero (cmd : Word) : Prop :=
  rsvField cmd = 0 ∧ faField cmd = 0 ∧ fbField cmd = 0 ∧ fyField cmd = 0

/-- `s` with the response `Y = y`, `E = e`, `STATUS = 0` on offer and nothing else changed. -/
def answered (s : State) (y : Word) (e : ExpByte) : State :=
  { s with phase := .resp, y := y, e := e, status := 0#2 }

/-- `s` with the error response of code `code` on offer and nothing else changed (`60_exceptions.md` R151). -/
def errored (s : State) (code : StatusBits) : State :=
  { s with phase := .resp, y := 0#32, e := 0#8, status := code }

/-- `s` with one external call issued and nothing else changed (`10_state.md` R23). -/
def waiting (s : State) (sel : ExtSel) (arg : Word) : State :=
  { s with phase := .waitExt, ext := some ⟨sel, arg⟩ }

/-- The invariant of the block. -/
structure Inv (s : State) : Prop where
  /-- A call is outstanding only in WAIT_EXT (`20_memory.md` R53; `10_state.md` R29). -/
  idlePort : s.phase ≠ .waitExt → s.ext = none
  /-- In WAIT_EXT the outstanding call is the one of the held request (`20_memory.md` R53; `43_composition.md` R143). -/
  ownCall : s.phase = .waitExt →
    ∃ i c, checkCommand s.cmd = .ok i ∧ externalCall i s.a s.b = some c ∧ s.ext = some c
  /-- A response on offer is the function of the held request (`10_state.md` R20; `70_reset_and_hazards.md` R172). -/
  ownResponse : s.phase = .resp →
    (⟨s.y, s.e, s.status⟩ : Response) = execute Config.extExp Config.extDb2lin s.cmd s.a s.b

/-- Two states that a host and the collaborators cannot tell apart: same phase, same outstanding call, same future
inputs, the same request where one is held, the same response where one is offered (`10_state.md` R20, R34). -/
structure SameToOutside (s t : State) : Prop where
  /-- Same phase. -/
  phase : s.phase = t.phase
  /-- Same external port. -/
  ext : s.ext = t.ext
  /-- Same inputs to come. -/
  inputs : s.inputs = t.inputs
  /-- Same request, unless none is held. -/
  request : s.phase ≠ .idle → s.cmd = t.cmd ∧ s.a = t.a ∧ s.b = t.b
  /-- Same response as the host reads it, and none on either side when none is offered. -/
  response : readResponse s = readResponse t

end Sys2Proof.Machine
end

