-- ==== Sys2Proof/Certificates/Slice0/Obligations.lean ====
section
/-! DEFINITION. The statements for the provers. Each docstring names the rule of the spec it formalises. -/

open Sys2Proof Sys2Proof.Machine

/-! ## The thirteen operations

Each says two things: what the operation answers when its parameters are legal, and what the block answers to every
command word with that `OP`, errors included. `answered`, `errored` and `waiting` fix every other field of the state. -/

/-- QMUL (`40_qarith.md` R78). -/
def Obligations.QmulAnswersRoundedProduct : Prop :=
  ∀ s : State,
    (∀ fa fb fy : Count, fa.toNat ≤ 31 → fb.toNat ≤ 31 → fy.toNat ≤ 31 → fy.toNat ≤ fa.toNat + fb.toNat →
      exec (.qmul fa fb fy) s = .next (answered s
        (wrap32 (rndShr (s.a.toInt * s.b.toInt) (fa.toNat + fb.toNat - fy.toNat))) 0)) ∧
    (Executing s → opField s.cmd = 0#4 →
      step s = .next (
        if rsvField s.cmd ≠ 0 then errored s 2
        else if 31 < (faField s.cmd).toNat ∨ 31 < (fbField s.cmd).toNat ∨ 31 < (fyField s.cmd).toNat ∨
            (faField s.cmd).toNat + (fbField s.cmd).toNat < (fyField s.cmd).toNat then errored s 3
        else answered s (wrap32 (rndShr (s.a.toInt * s.b.toInt)
          ((faField s.cmd).toNat + (fbField s.cmd).toNat - (fyField s.cmd).toNat))) 0))

/-- QSHR (`40_qarith.md` R82). -/
def Obligations.QshrAnswersRoundedShift : Prop :=
  ∀ s : State,
    (∀ fa fy : Count, fa.toNat ≤ 31 → fy.toNat ≤ 31 → fy.toNat ≤ fa.toNat →
      exec (.qshr fa fy) s = .next (answered s (wrap32 (rndShr s.a.toInt (fa.toNat - fy.toNat))) 0)) ∧
    (Executing s → opField s.cmd = 1#4 →
      step s = .next (
        if rsvField s.cmd ≠ 0 ∨ fbField s.cmd ≠ 0 then errored s 2
        else if 31 < (faField s.cmd).toNat ∨ 31 < (fyField s.cmd).toNat ∨
            (faField s.cmd).toNat < (fyField s.cmd).toNat then errored s 3
        else answered s (wrap32 (rndShr s.a.toInt ((faField s.cmd).toNat - (fyField s.cmd).toNat))) 0))

/-- QSHL (`40_qarith.md` R85). -/
def Obligations.QshlAnswersWrappedShift : Prop :=
  ∀ s : State,
    (∀ fa fy : Count, fa.toNat ≤ 31 → fy.toNat ≤ 31 → fa.toNat ≤ fy.toNat →
      exec (.qshl fa fy) s = .next (answered s (wrap32 (s.a.toInt * 2 ^ (fy.toNat - fa.toNat))) 0)) ∧
    (Executing s → opField s.cmd = 2#4 →
      step s = .next (
        if rsvField s.cmd ≠ 0 ∨ fbField s.cmd ≠ 0 then errored s 2
        else if 31 < (faField s.cmd).toNat ∨ 31 < (fyField s.cmd).toNat ∨
            (fyField s.cmd).toNat < (faField s.cmd).toNat then errored s 3
        else answered s (wrap32 (s.a.toInt * 2 ^ ((fyField s.cmd).toNat - (faField s.cmd).toNat))) 0))

/-- REXP (`41_range_reducer.md` R90, with the three cases of R92 written out). -/
def Obligations.RexpAnswersMantissaAndExponent : Prop :=
  ∀ s : State,
    let m : Word :=
      if scan s.a = 31 then wrap32 (rndShr s.a.toInt 1)
      else if scan s.a = 30 then s.a
      else wrap32 (s.a.toInt * 2 ^ (30 - scan s.a))
    (∀ fa : Count, fa.toNat ≤ 31 →
      exec (.rexp fa) s = .next (answered s m (BitVec.ofInt 8 ((scan s.a : Int) - fa.toNat)))) ∧
    (Executing s → opField s.cmd = 3#4 →
      step s = .next (
        if rsvField s.cmd ≠ 0 ∨ fbField s.cmd ≠ 0 ∨ fyField s.cmd ≠ 0 then errored s 2
        else if 31 < (faField s.cmd).toNat then errored s 3
        else answered s m (BitVec.ofInt 8 ((scan s.a : Int) - (faField s.cmd).toNat))))

/-- LOG10 (`42_polynomial.md` R104, with the zero policy of R105), its Horner chain and constants written out. -/
def Obligations.Log10AnswersHornerChain : Prop :=
  ∀ s : State,
    let m0 := mantissa s.a
    let folds := 759250125 < m0.toInt
    let m := if folds then qmul m0 0x2D413CCD#32 30 30 30 else m0
    let exp2 : Int := 2 * ((scan s.a : Int) - 26) + if folds then 1 else 0
    let c4 := add32 (qmul 0x04870BA0#32 m 26 30 26) 0xEEF71D20#32
    let c3 := add32 (qmul c4 m 26 30 26) 0x1B43E840#32
    let c2 := add32 (qmul c3 m 26 30 26) 0xE7869580#32
    let c1 := add32 (qmul c2 m 26 30 26) 0x0E9A23B0#32
    let c0 := add32 (qmul c1 m 26 30 26) 0xFB20E060#32
    let y : Word := if s.a = 0 then 0x80000000#32
      else add32 c0 (qmul (wrap32 exp2) 0x01344135#32 1 26 26)
    exec .log10 s = .next (answered s y 0) ∧
    (Executing s → opField s.cmd = 4#4 →
      step s = .next (if FieldsZero s.cmd then answered s y 0 else errored s 2))

/-- SIN (`42_polynomial.md` R110), its Horner chain and constants written out. -/
def Obligations.SinAnswersOddPolynomial : Prop :=
  ∀ s : State,
    let x2 := qmul s.a s.a 30 30 30
    let c5 := add32 (qmul 0xFFB901F0#32 x2 30 30 30) 0x05157358#32
    let c3 := add32 (qmul c5 x2 30 30 30) 0xD6A9B140#32
    let c1 := add32 (qmul c3 x2 30 30 30) 0x6487D700#32
    let y := qmul c1 s.a 30 30 30
    exec .sin s = .next (answered s y 0) ∧
    (Executing s → opField s.cmd = 5#4 →
      step s = .next (if FieldsZero s.cmd then answered s y 0 else errored s 2))

/-- ASIN (`42_polynomial.md` R114, branch of R115), both Horner chains and the constants written out. -/
def Obligations.AsinAnswersBranchPolynomial : Prop :=
  ∀ s : State,
    let x2 := qmul s.a s.a 30 30 30
    let l5 := add32 (qmul 0x07904E08#32 x2 30 30 30) 0x02930944#32
    let l3 := add32 (qmul l5 x2 30 30 30) 0x0B052761#32
    let l1 := add32 (qmul l3 x2 30 30 30) 0x3FFC3BFF#32
    let low := qmul (qmul l1 s.a 30 30 30) 0x28BE60DC#32 30 30 30
    let xh := wrap32 (rndShr s.a.toInt 4)
    let x2h := qmul xh xh 26 26 26
    let h5 := add32 (qmul 0x3882D000#32 x2h 26 26 26) 0x8752AA80#32
    let h3 := add32 (qmul h5 x2h 26 26 26) 0x55E77C80#32
    let h1 := add32 (qmul h3 x2h 26 26 26) 0xF06BF020#32
    let high := qmul (qmul h1 xh 26 26 26) 0x28BE60DC#32 26 30 30
    let y := if -759250125 ≤ s.a.toInt ∧ s.a.toInt ≤ 759250125 then low else high
    exec .asin s = .next (answered s y 0) ∧
    (Executing s → opField s.cmd = 6#4 →
      step s = .next (if FieldsZero s.cmd then answered s y 0 else errored s 2))

/-- INV (`42_polynomial.md` R120, with the zero policy of R121 and the shifts of R124), its Horner chain and constants
written out. -/
def Obligations.InvAnswersReciprocalChain : Prop :=
  ∀ s : State,
    let m0 := mantissa s.a
    let sq := m0.toInt < 759250125
    let m := if sq then qmul m0 0x5A82799A#32 30 30 30 else m0
    let c4 := add32 (qmul 0xFA83C3B0#32 m 25 30 25) 0x1C06CC60#32
    let c3 := add32 (qmul c4 m 25 30 25) 0xC482BD00#32
    let c2 := add32 (qmul c3 m 25 30 25) 0x4324E800#32
    let c1 := add32 (qmul c2 m 25 30 25) 0xD57FD700#32
    let c0 := add32 (qmul c1 m 25 30 25) 0x0E4DF3D0#32
    let acc := if sq then qmul c0 0x5A82799A#32 25 30 25 else c0
    let y : Nat → Nat → Word := fun fa fy =>
      let pinv : Int := (scan s.a : Int) - fa + 25
      if s.a = 0 then 0x7FFFFFFF#32
      else if pinv > fy then wrap32 (rndShr acc.toInt (pinv - fy).toNat)
      else if pinv < fy then wrap32 (acc.toInt * 2 ^ ((fy : Int) - pinv).toNat)
      else acc
    (∀ fa fy : Count, fa.toNat ≤ 31 → fy.toNat ≤ 31 →
      exec (.inv fa fy) s = .next (answered s (y fa.toNat fy.toNat) 0)) ∧
    (Executing s → opField s.cmd = 7#4 →
      step s = .next (
        if rsvField s.cmd ≠ 0 ∨ fbField s.cmd ≠ 0 then errored s 2
        else if 31 < (faField s.cmd).toNat ∨ 31 < (fyField s.cmd).toNat then errored s 3
        else answered s (y (faField s.cmd).toNat (fyField s.cmd).toNat) 0))

/-- LOG (`43_composition.md` R131). `log10Value` is the `Y` that `Log10AnswersHornerChain` fixes. -/
def Obligations.LogAnswersSentinelOrScaledLog10 : Prop :=
  ∀ s : State,
    let y := if s.a.toInt ≤ 0 then 0x88000000#32
      else wrap32 (rndShr ((log10Value s.a).toInt * 1236190959) 29)
    exec .log s = .next (answered s y 0) ∧
    (∀ t, exec .log10 s = .next t → t.y = log10Value s.a) ∧
    (Executing s → opField s.cmd = 8#4 →
      step s = .next (if FieldsZero s.cmd then answered s y 0 else errored s 2))

/-- LIN2DB (`43_composition.md` R133), with its derived one-rounding form. -/
def Obligations.Lin2dbAnswersSentinelOrDecibels : Prop :=
  ∀ s : State,
    let y := if s.a.toInt ≤ 0 then 0x83000000#32
      else wrap32 (rndShr (1342177280 * (log10Value s.a).toInt) 31)
    exec .lin2db s = .next (answered s y 0) ∧
    (0 < s.a.toInt → y = wrap32 (rndShr (5 * (log10Value s.a).toInt) 3)) ∧
    (Executing s → opField s.cmd = 9#4 →
      step s = .next (if FieldsZero s.cmd then answered s y 0 else errored s 2))

/-- DB2LIN (`43_composition.md` R135, R136): the call goes out on `EXT_SEL = 1` with the operand unchanged, and the answer comes back
as `Y` unchanged. The answer as an event of the list `inputs` is the model's choice (log 4). -/
def Obligations.Db2linAsksAndRelaysAnswer : Prop :=
  ∀ s : State,
    exec .db2lin s = .next (waiting s .db2lin s.a) ∧ extPort (waiting s .db2lin s.a) = some (1#1, s.a) ∧
    (∀ rest, step { waiting s .db2lin s.a with inputs := .extAnswer :: rest } =
      .next (answered { s with inputs := rest, ext := none } (Config.extDb2lin s.a) 0)) ∧
    (Executing s → opField s.cmd = 10#4 →
      step s = .next (if FieldsZero s.cmd then waiting s .db2lin s.a else errored s 2))

/-- KNEEEXP (`43_composition.md` R137, R138). The answer as an event is the model's choice (log 4). -/
def Obligations.KneeexpAsksAndRelaysAnswer : Prop :=
  ∀ s : State,
    exec .kneeexp s = .next (waiting s .exp s.a) ∧ extPort (waiting s .exp s.a) = some (0#1, s.a) ∧
    (∀ rest, step { waiting s .exp s.a with inputs := .extAnswer :: rest } =
      .next (answered { s with inputs := rest, ext := none } (Config.extExp s.a) 0)) ∧
    (Executing s → opField s.cmd = 11#4 →
      step s = .next (if FieldsZero s.cmd then waiting s .exp s.a else errored s 2))

/-- POW (`43_composition.md` R139): the argument is `y * ln(x)` formed in Q5.27 from the `Y` of LOG, and the call is
made on LOG's sentinel path too. The answer as an event is the model's choice (log 4). -/
def Obligations.PowAsksWithScaledLog : Prop :=
  ∀ s : State,
    let t := wrap32 (rndShr (s.b.toInt * (logValue s.a).toInt) 29)
    exec .pow s = .next (waiting s .exp t) ∧ extPort (waiting s .exp t) = some (0#1, t) ∧
    (∀ u, exec .log s = .next u → u.y = logValue s.a) ∧
    (∀ rest, step { waiting s .exp t with inputs := .extAnswer :: rest } =
      .next (answered { s with inputs := rest, ext := none } (Config.extExp t) 0)) ∧
    (Executing s → opField s.cmd = 12#4 →
      step s = .next (if FieldsZero s.cmd then waiting s .exp t else errored s 2))

/-! ## Command words -/

/-- Words written out from `30_encoding.md` R56 and R58 and the worked examples of R62, R65, R78, R82, R85, R90, R120
decode to the operation, or the error, they stand for. -/
def Obligations.SampleCommandWordsDecode : Prop :=
  checkCommand 0x001E79E0#32 = .ok (.qmul 30 30 30) ∧
  checkCommand 0x001501A1#32 = .ok (.qshr 26 21) ∧
  checkCommand 0x001E01A2#32 = .ok (.qshl 26 30) ∧
  checkCommand 0x000001A3#32 = .ok (.rexp 26) ∧
  checkCommand 0x00000004#32 = .ok .log10 ∧
  checkCommand 0x001A01A7#32 = .ok (.inv 26 26) ∧
  checkCommand 0x0000000C#32 = .ok .pow ∧
  checkCommand 0x0040028D#32 = .error .reservedField ∧
  checkCommand 0x0000028D#32 = .error .illegalOp ∧
  checkCommand 0x00000285#32 = .error .reservedField ∧
  checkCommand 0x001A0287#32 = .error .badParam

/-- Decoding an encoded operation gives it back, for every operation and every value of its fields, legal or not
(`30_encoding.md` R56, R58). -/
def Obligations.DecodeOfEncodeIsIdentity : Prop :=
  ∀ i : Instr, decode (encode i) = .ok i

/-- Each accepted command word is the encoding of the operation it selects, so no two words select the same operation
with the same fields (`30_encoding.md` R58, R60, R63). -/
def Obligations.EncodeOfDecodeIsIdentity : Prop :=
  ∀ (cmd : Word) (i : Instr), decode cmd = .ok i → encode i = cmd

/-- The checks of `30_encoding.md` R62 in their order decide every command word: the first that fails is the error,
and an operation with legal parameters is started when none fails (R60, R61, R63; `60_exceptions.md` R157). -/
def Obligations.FirstFailingCheckDecidesEveryWord : Prop :=
  ∀ cmd : Word,
    match firstFailingCheck cmd with
    | some c => checkCommand cmd = .error c
    | none => ∃ i, checkCommand cmd = .ok i ∧ i.wellFormed = true ∧ encode i = cmd

/-- `CmdError` (`60_exceptions.md` R151, R152): a command word that fails a check is answered by `Y = 0`, `E = 0`,
`STATUS` the code of the first failing check, straight from EXEC to RESP, with no external call and nothing else
changed; taking it changes only `PHASE`. The taking as an event is the model's choice (log 4). -/
def Obligations.CommandErrorIsAnOrdinaryResponse : Prop :=
  ∀ (s : State) (c : CmdError), Executing s → firstFailingCheck s.cmd = some c →
    step s = .next (errored s (match c with | .illegalOp => 1 | .reservedField => 2 | .badParam => 3)) ∧
    ∀ code rest, step { errored s code with inputs := .take :: rest } =
      .next { errored s code with phase := .idle, inputs := rest }

/-- `STATUS` reports the command word and nothing else (`30_encoding.md` R57, R62; `60_exceptions.md` R153): whatever
the operands and whatever a collaborator answers, it is 0 when every check passes and the code of the first failing
check otherwise. -/
def Obligations.StatusReportsOnlyTheCommandWord : Prop :=
  ∀ s t : State, step s = .next t → t.phase = .resp →
    (Executing s → t.status =
      match firstFailingCheck s.cmd with
      | none => 0#2
      | some .illegalOp => 1#2
      | some .reservedField => 2#2
      | some .badParam => 3#2) ∧
    (s.phase = .waitExt → t.status = 0#2 ∧ t.e = 0#8)

/-- `30_encoding.md` R61 as every operation applies it: an operation whose parameters are not legal ends in
`CmdError(3)`. That the operation makes this check itself is the model's choice (log 11). -/
def Obligations.IllegalParametersAnswerBadParam : Prop :=
  ∀ (i : Instr) (s : State), i.wellFormed = false → exec i s = .next (errored s 3)

/-! ## The step and the handshake -/

/-- A step in EXEC, no reset asserted, is the meaning of the decoded operation; a word that decodes to none is
answered by its error. Nothing stands around the meaning: there is no program counter (`10_state.md` R25). -/
def Obligations.StepRunsDecodedOperation : Prop :=
  ∀ s : State, Executing s →
    (∀ i, decode s.cmd = .ok i → step s = exec i s) ∧
    (∀ c, decode s.cmd = .error c → step s = .next (raiseCmdError c s))

/-- Placing a command word makes the very next step run it, from any state (log 10). -/
def Obligations.PlacedCommandRunsNext : Prop :=
  ∀ (s : State) (i : Instr),
    let u := s.withFetchWord 32 (encode i).toNat
    Executing u ∧ u.a = s.a ∧ u.b = s.b ∧ step u = exec i u

/-- Every step of every state answers a next state: no command word, operand value or event stops the block. No one rule
says it; it is the model's deduction (log 13) from `30_encoding.md` R63 and R64 and `60_exceptions.md` R151, R153 and
R159. -/
def Obligations.EveryStepAnswersANextState : Prop :=
  ∀ s : State, ∃ t, step s = .next t

/-- From EXEC the block reaches RESP or WAIT_EXT with no outside event (`70_reset_and_hazards.md` R177, its liveness
sentence): no input is consumed. That it takes one step is the model's choice (log 5). -/
def Obligations.ExecutionReachesResponseOrCall : Prop :=
  ∀ s : State, Executing s →
    ∃ t, step s = .next t ∧ t.inputs = s.inputs ∧
      ((t.phase = .resp ∧ t.ext = s.ext) ∨ (t.phase = .waitExt ∧ t.ext.isSome = true))

/-- The transitions of `PHASE` (`10_state.md` R23), a reset apart: the five that the rule lists, each with its cause
and the whole next state, or the block waits unchanged outside EXEC; "No other transition exists". The causes as events
of the list `inputs` are the model's choice (log 4), and so is that an event that is no cause, a stray answer among them,
is consumed (log 7, log 15). -/
def Obligations.PhaseMovesOnlyAsListed : Prop :=
  ∀ s t : State, step s = .next t → resetAsserted s = false →
    (s.phase ≠ .exec ∧ t = { s with inputs := t.inputs }) ∨
    (s.phase = .idle ∧ ∃ r rest, s.inputs = .request r :: rest ∧
      t = { s with phase := .exec, cmd := r.cmd, a := r.a, b := r.b, inputs := rest }) ∨
    (s.phase = .exec ∧ (∀ i, checkCommand s.cmd = .ok i → externalCall i s.a s.b = none) ∧
      let r := execute Config.extExp Config.extDb2lin s.cmd s.a s.b
      t = { s with phase := .resp, y := r.y, e := r.e, status := r.status }) ∨
    (s.phase = .exec ∧ ∃ i c, checkCommand s.cmd = .ok i ∧ externalCall i s.a s.b = some c ∧
      t = { s with phase := .waitExt, ext := some c }) ∨
    (s.phase = .waitExt ∧ ∃ c rest, s.ext = some c ∧ s.inputs = .extAnswer :: rest ∧
      t = { s with
        phase := .resp, y := extValue c, e := 0#8, status := 0#2, ext := none, inputs := rest }) ∨
    (s.phase = .resp ∧ ∃ rest, s.inputs = .take :: rest ∧ t = { s with phase := .idle, inputs := rest })

/-- The request port (`10_state.md` R21, R23; `20_memory.md` R45): in IDLE the three words are loaded at one instant
and EXEC begins; in every other phase a request changes nothing (`70_reset_and_hazards.md` R175 a). The request as an
event is the model's choice (log 4, log 15). -/
def Obligations.RequestAcceptedOnlyInIdle : Prop :=
  ∀ (s : State) (r : Request) (rest : List Event),
    let u := { s with inputs := .request r :: rest }
    (s.phase = .idle → step u =
      .next { s with phase := .exec, cmd := r.cmd, a := r.a, b := r.b, inputs := rest }) ∧
    (s.phase = .waitExt ∨ s.phase = .resp → step u = .next { s with inputs := rest }) ∧
    (s.phase = .exec → ∃ t, step u = .next t ∧ t.cmd = s.cmd ∧ t.a = s.a ∧ t.b = s.b)

/-- The frame of every operation (`10_state.md` R21, R22): it writes no request register and consumes no input; one
that makes no external call leaves the external port alone, and one that makes one leaves the response registers alone
(`20_memory.md` R53; `43_composition.md` R143). -/
def Obligations.OperationsKeepTheRequest : Prop :=
  ∀ (i : Instr) (s : State),
    ∃ t, exec i s = .next t ∧ t.cmd = s.cmd ∧ t.a = s.a ∧ t.b = s.b ∧ t.inputs = s.inputs ∧
      match externalCall i s.a s.b with
      | none => t.phase = .resp ∧ t.ext = s.ext
      | some c => t.phase = .waitExt ∧ t.ext = some c ∧ t.y = s.y ∧ t.e = s.e ∧ t.status = s.status

/-- `43_composition.md` R143: DB2LIN, KNEEEXP and POW make exactly one external call each, POW's to `EXP` only and on
non-positive `x` too; no other command word makes one. The lines of the port are those of R140 and `30_encoding.md`
R68. -/
def Obligations.ExternalCallsComeFromThreeOperations : Prop :=
  ∀ s : State, Executing s → s.ext = none →
    ∃ t, step s = .next t ∧
      (t.ext =
        if s.cmd = 10#32 then some ⟨.db2lin, s.a⟩
        else if s.cmd = 11#32 then some ⟨.exp, s.a⟩
        else if s.cmd = 12#32 then
          some ⟨.exp, wrap32 (rndShr (s.b.toInt * (logValue s.a).toInt) 29)⟩
        else none) ∧
      extPort t =
        if s.cmd = 10#32 then some (1#1, s.a)
        else if s.cmd = 11#32 then some (0#1, s.a)
        else if s.cmd = 12#32 then some (0#1, wrap32 (rndShr (s.b.toInt * (logValue s.a).toInt) 29))
        else none

/-- `E = 0` in every response but that of a legal REXP (`30_encoding.md` R57): in what an operation answers itself, and
in every response that a step produces, be it an error or a collaborator's answer. -/
def Obligations.ExponentIsZeroExceptForRexp : Prop :=
  ∀ s t : State, t.phase = .resp →
    (∀ i, exec i s = .next t → (∀ fa, i = .rexp fa → 31 < fa.toNat) → t.e = 0) ∧
    (s.phase ≠ .resp → step s = .next t →
      (s.phase = .exec → ∀ fa, checkCommand s.cmd ≠ .ok (.rexp fa)) → t.e = 0)

/-- An operation that ignores `B` answers the same for every value of `B` (`30_encoding.md` R59). -/
def Obligations.OperandBIgnoredButByTwo : Prop :=
  ∀ (i : Instr) (s : State) (v : Word), (∀ fa fb fy, i ≠ .qmul fa fb fy) → i ≠ .pow →
    nextOf (exec i { s with b := v }) = (nextOf (exec i s)).map (fun t => { t with b := v })

/-- The response port (`10_state.md` R34): the three registers are read together while RESP offers them, and there is
no value to read otherwise. The fault is the model's choice among those R34 allows (log 9). -/
def Obligations.ResponseReadOnlyWhileOffered : Prop :=
  ∀ s : State,
    (s.phase = .resp → readResponse s = .ok ⟨s.y, s.e, s.status⟩) ∧
    (s.phase ≠ .resp → readResponse s = .error .responseNotOffered)

/-- `70_reset_and_hazards.md` R175 (c): the response stays offered, unchanged, for as long as it is not taken and no
reset is asserted. Unfit events are consumed: the model's choice (log 4, log 15). -/
def Obligations.ResponseStaysUntilTaken : Prop :=
  ∀ (n : Nat) (s : State), s.phase = .resp → (∀ ev ∈ s.inputs, ev ≠ .take ∧ ev ≠ .reset) →
    ∃ t : State, Host.Core.run Sys2Proof.core n s = .next t ∧ readResponse t = .ok ⟨s.y, s.e, s.status⟩ ∧
      t = { s with inputs := s.inputs.drop n }

/-- `43_composition.md` R142: with no answer and no reset the block stays in WAIT_EXT for ever, offers no response and
accepts no request. A stray answer is no answer to the outstanding call: the model's deduction (log 7). Unfit events are
consumed: the model's choice (log 4, log 15). -/
def Obligations.UnansweredCallWaitsForEver : Prop :=
  ∀ (n : Nat) (s : State), s.phase = .waitExt → (∀ ev ∈ s.inputs, ev ≠ .extAnswer ∧ ev ≠ .reset) →
    ∃ t : State, Host.Core.run Sys2Proof.core n s = .next t ∧ t.phase = .waitExt ∧ requestReady t = false ∧
      readResponse t = .error .responseNotOffered ∧ t = { s with inputs := s.inputs.drop n }

/-- `70_reset_and_hazards.md` R170, R171: an asserted reset takes the block from any phase to IDLE, with no response
on offer and no call outstanding; an answer that comes after it is ignored. What the outside does next is kept. The
two kinds of late answer are the model's choice (log 7), and so is the list of inputs (log 3, log 4). -/
def Obligations.ResetAbandonsFromAnyPhase : Prop :=
  ∀ (s : State) (rest : List Event),
    ∃ t, step { s with inputs := .reset :: rest } = .next t ∧ t.phase = .idle ∧ t.ext = none ∧
      t.inputs = rest ∧ requestReady t = true ∧ readResponse t = .error .responseNotOffered ∧
      ∀ (v : Word) (more : List Event) (ev : Event), ev = .extAnswer ∨ ev = .strayAnswer v →
        step { t with inputs := ev :: more } = .next { t with inputs := more }

/-- `10_state.md` R33, the values it states: IDLE, accepting, offering nothing, requesting nothing. -/
def Obligations.ResetStateIsIdle : Prop :=
  State.reset.phase = .idle ∧ requestReady State.reset = true ∧ responseValid State.reset = false ∧
    State.reset.ext = none

/-- The invariant holds right after reset, whatever the data registers hold. -/
def Obligations.InvariantHoldsAfterReset : Prop :=
  ∀ (cmd a b y : Word) (e : ExpByte) (status : StatusBits),
    Inv { State.reset with cmd := cmd, a := a, b := b, y := y, e := e, status := status }

/-- The invariant of the block: a call is outstanding only in WAIT_EXT and is that of the held request, and a response
on offer is the function of the held request that `70_reset_and_hazards.md` R172 names; every step from every state
keeps it. -/
def Obligations.EveryStepKeepsTheInvariant : Prop :=
  ∀ s t : State, Inv s → step s = .next t → Inv t

/-- One whole transaction from IDLE, whatever the registers hold (`10_state.md` R20, R23; `70_reset_and_hazards.md`
R172): the request is accepted, computed and, if it calls, answered; the response on offer is the pure function of the
request and the collaborators; taking it ends in IDLE with the rest of the inputs to come. The events and the three steps are the model's choice (log 4, log 5), and so is that an answer nobody waits for is
consumed in RESP (log 15). -/
def Obligations.TransactionDeliversThePureFunction : Prop :=
  ∀ (s : State) (r : Request) (rest : List Event), s.phase = .idle → s.ext = none →
    ∃ t u : State, Host.Core.run Sys2Proof.core 3 { s with inputs := .request r :: .extAnswer :: .take :: rest } = .next t ∧
      readResponse t = .ok (execute Config.extExp Config.extDb2lin r.cmd r.a r.b) ∧
      step t = .next u ∧ u.phase = .idle ∧ u.ext = none ∧ u.inputs = rest

/-- "No component holds state across calls" (`10_state.md` R20): every step keeps two states that the outside cannot
tell apart indistinguishable, and two idle blocks with different histories, that is with any two contents of all six
data registers, are so under any run of the same inputs. "Tell apart" is by `SameToOutside`. -/
def Obligations.HistoryIsInvisible : Prop :=
  (∀ s t s' t' : State, SameToOutside s t → step s = .next s' → step t = .next t' → SameToOutside s' t') ∧
  ∀ (n : Nat) (s t : State), s.phase = .idle → t.phase = .idle → s.ext = none → t.ext = none →
    s.inputs = t.inputs →
    SameToOutside s t ∧
    ∃ s' t' : State, Host.Core.run Sys2Proof.core n s = .next s' ∧ Host.Core.run Sys2Proof.core n t = .next t' ∧
      SameToOutside s' t'

/-! ## Arithmetic -/

/-- `wrap32` (`00_scope.md` R13): the one signed 32-bit integer congruent to its argument modulo `2 ^ 32`. -/
def Obligations.WrapIsTheUniqueSignedResidue : Prop :=
  ∀ v r : Int, (wrap32 v).toInt = r ↔ -(2 ^ 31) ≤ r ∧ r ≤ 2 ^ 31 - 1 ∧ ∃ k : Int, v = r + k * 2 ^ 32

/-- `rnd_shr` (`00_scope.md` R14): the identity for `s = 0`; for `s >= 1` the floor of `(v + 2 ^ (s - 1)) / 2 ^ s`,
the form with two shifts and one increment, and the rule's examples. -/
def Obligations.RoundingShiftIsNearestHalfUp : Prop :=
  (∀ v : Int, rndShr v 0 = v) ∧
  (∀ (v q : Int) (s : Nat), 1 ≤ s →
    (rndShr v s = q ↔ q * 2 ^ s ≤ v + 2 ^ (s - 1) ∧ v + 2 ^ (s - 1) < (q + 1) * 2 ^ s)) ∧
  (∀ (v : Int) (s : Nat), 1 ≤ s → rndShr v s = (v / 2 ^ (s - 1) + 1) / 2) ∧
  rndShr 3 1 = 2 ∧ rndShr 1 1 = 1 ∧ rndShr (-1) 1 = 0 ∧ rndShr (-3) 1 = -1 ∧
  rndShr 5 2 = 1 ∧ rndShr 6 2 = 2 ∧ rndShr (-6) 2 = -1 ∧ rndShr (-5) 2 = -1

/-- The asymmetry of the rounding (`40_qarith.md` R80): negation commutes with it but on an exact half, where the two
differ by one. -/
def Obligations.RoundingIsOddExceptOnHalves : Prop :=
  ∀ (v : Int) (s : Nat), 1 ≤ s →
    rndShr (-v) s = if v % 2 ^ s = 2 ^ (s - 1) then -rndShr v s + 1 else -rndShr v s

/-- A signed 64-bit accumulator is enough for `qmul` (`10_state.md` R28; `40_qarith.md` R79): it equals the datapath that
forms the product in 64 bits, rounds it there by two arithmetic shifts and one increment (`00_scope.md` R14), and keeps
the low 32 bits; the product is exact in 64 bits and in the range that R79 gives, and the increment does not overflow. -/
def Obligations.ProductFitsTheAccumulator : Prop :=
  ∀ x z : Word,
    (∀ fa fb fy : Nat,
      let p : BitVec 64 := x.signExtend 64 * z.signExtend 64
      let s := fa + fb - fy
      qmul x z fa fb fy =
        (if s = 0 then p else (p.sshiftRight (s - 1) + 1#64).sshiftRight 1).setWidth 32) ∧
    -(2 ^ 62 - 2 ^ 31) ≤ x.toInt * z.toInt ∧ x.toInt * z.toInt ≤ 2 ^ 62 ∧
    (BitVec.ofInt 64 (x.toInt * z.toInt)).toInt = x.toInt * z.toInt ∧
    ∀ s : Nat, 1 ≤ s → -(2 ^ 63) ≤ x.toInt * z.toInt / 2 ^ (s - 1) + 1 ∧
      x.toInt * z.toInt / 2 ^ (s - 1) + 1 < 2 ^ 63

/-- `40_qarith.md` R83: the rounding shift is the multiply-rescale with a unit multiplier. -/
def Obligations.QshrIsQmulByOne : Prop :=
  ∀ (x : Word) (src dst : Nat), dst ≤ src → qshr x src dst = qmul x 1 src 0 dst

/-- The narrowing of QSHR changes nothing (`40_qarith.md` R82, derived), and QSHL loses nothing when its result fits
(R85, C8); `qshr` undoes a `qshl` that did not overflow, and `qshl` after `qshr` is the rounded value (R86). -/
def Obligations.RescalesLoseOnlyWhatTheyMust : Prop :=
  ∀ (x : Word) (hi lo : Nat), lo ≤ hi →
    (qshr x hi lo).toInt = rndShr x.toInt (hi - lo) ∧
    (-(2 ^ 31) ≤ x.toInt * 2 ^ (hi - lo) → x.toInt * 2 ^ (hi - lo) < 2 ^ 31 →
      (qshl x lo hi).toInt = x.toInt * 2 ^ (hi - lo) ∧ qshr (qshl x lo hi) hi lo = x) ∧
    qshl (qshr x hi lo) lo hi = wrap32 (rndShr x.toInt (hi - lo) * 2 ^ (hi - lo))

/-- The three equalities between requests of `30_encoding.md` R66, over all operands. -/
def Obligations.RequestEqualitiesHold : Prop :=
  ∀ (s : State) (fa fy f p p' : Count),
    (fa.toNat ≤ 31 → fy.toNat ≤ fa.toNat → s.b = 1 → exec (.qshr fa fy) s = exec (.qmul fa 0 fy) s) ∧
    (f.toNat ≤ 31 → exec (.qshl f f) s = .next (answered s s.a 0) ∧
      exec (.qshr f f) s = .next (answered s s.a 0)) ∧
    (p.toNat ≤ 31 → p'.toNat ≤ 31 →
      (nextOf (exec (.rexp p) s)).map (fun t => t.y) = (nextOf (exec (.rexp p') s)).map (fun t => t.y))

/-- The bit scan (`41_range_reducer.md` R91): one more than the index of the highest set bit among bits 30 to 0, 0
when there is none; the bit length of `x[30:0]`. -/
def Obligations.ScanFindsTheHighestBitBelowTheSign : Prop :=
  ∀ x : Word,
    scan x = Nat.size (x.toNat % 2 ^ 31) ∧
    (∀ k : Nat, scan x = k + 1 ↔
      k ≤ 30 ∧ x.getLsbD k = true ∧ ∀ j, k < j → j ≤ 30 → x.getLsbD j = false) ∧
    (scan x = 0 ↔ x = 0 ∨ x = 0x80000000#32)

/-- The range-reducer invariant as it holds (`41_range_reducer.md` R97). -/
def Obligations.ReducerInvariantHolds : Prop :=
  ∀ (s : State) (fa : Count), fa.toNat ≤ 31 →
    ∃ t, exec (.rexp fa) s = .next t ∧
      (1 ≤ s.a.toInt → s.a.toInt ≤ 0x7FFFFFFE →
        0x20000000 ≤ t.y.toInt ∧ t.y.toInt ≤ 0x3FFFFFFF ∧ t.e.toInt = (scan s.a : Int) - fa.toNat ∧
        (scan s.a ≤ 30 → t.y.toInt = s.a.toInt * 2 ^ (30 - scan s.a))) ∧
      (s.a = 0x7FFFFFFF#32 → t.y = 0x40000000#32) ∧
      (s.a = 0 → t.y = 0 ∧ t.e.toInt = -fa.toNat)

/-- The exponent fits its field (`41_range_reducer.md` R93; `30_encoding.md` R57) and the pair rebuilds a positive
operand: exactly when at most 30 bits are used, else to within one unit (one bit is rounded away). -/
def Obligations.MantissaAndExponentRebuildTheOperand : Prop :=
  ∀ (x : Word) (px : Nat), px ≤ 31 →
    (expField (exponent x px)).toInt = (scan x : Int) - px ∧ -31 ≤ exponent x px ∧ exponent x px ≤ 31 ∧
    (0 < x.toInt → scan x ≤ 30 → (mantissa x).toInt * 2 ^ scan x = x.toInt * 2 ^ 30) ∧
    (0 < x.toInt → scan x = 31 → x.toInt ≤ 2 * (mantissa x).toInt ∧ 2 * (mantissa x).toInt ≤ x.toInt + 1)

/-- `41_range_reducer.md` R96: the mantissa of a positive operand is in `2 ^ 29 .. 2 ^ 30`, and reaches 1.0 only for
the largest. -/
def Obligations.LargestOperandAloneReachesOne : Prop :=
  ∀ x : Word, 0 < x.toInt →
    2 ^ 29 ≤ (mantissa x).toInt ∧ (mantissa x).toInt ≤ 2 ^ 30 ∧
    ((mantissa x).toInt = 2 ^ 30 ↔ x = 0x7FFFFFFF#32)

/-- Horner's rule (`42_polynomial.md` R101): highest coefficient first, each step one rounded product and one wrapping
add. -/
def Obligations.HornerIsOneStepPerCoefficient : Prop :=
  ∀ (cn c t : Word) (cs : List Word) (fc ft : Nat),
    horner cn [] t fc ft = cn ∧
    horner cn (cs ++ [c]) t fc ft = add32 (qmul (horner cn cs t fc ft) t fc ft fc) c

/-- The zero policies (`41_range_reducer.md` R94; `42_polynomial.md` R105, R121; D26). -/
def Obligations.ZeroOperandPolicies : Prop :=
  ∀ (s : State) (fa fy : Count), s.a = 0 → fa.toNat ≤ 31 → fy.toNat ≤ 31 →
    exec (.rexp fa) s = .next (answered s 0 (BitVec.ofInt 8 (-fa.toNat))) ∧
    exec (.inv fa fy) s = .next (answered s 0x7FFFFFFF#32 0) ∧
    exec .log10 s = .next (answered s 0x80000000#32 0)

/-- The sentinels (`43_composition.md` R132, R134) are exact for every non-positive operand and are table constants.
-/
def Obligations.SentinelsAreExact : Prop :=
  ∀ s : State, s.a.toInt ≤ 0 →
    exec .log s = .next (answered s (wrap32 (-30 * 2 ^ 26)) 0) ∧
    exec .lin2db s = .next (answered s (wrap32 (-1000 * 2 ^ 21)) 0) ∧
    rom .sentLog = wrap32 (-30 * 2 ^ 26) ∧ rom .sentDb = wrap32 (-1000 * 2 ^ 21)

/-- The reduced domain of the log10 polynomial is `[0.5, 1/sqrt 2]` (`42_polynomial.md` R106), and the exponent term
is the rounded half of `exp2 * 20201781` with `exp2` in `-50 .. 11` (R107). -/
def Obligations.Log10ReducesItsDomain : Prop :=
  ∀ x : Word, 0 < x.toInt →
    0x20000000 ≤ (log10Reduce x).1.toInt ∧ (log10Reduce x).1.toInt ≤ 0x2D413CCD ∧
    -50 ≤ (log10Reduce x).2 ∧ (log10Reduce x).2 ≤ 11 ∧
    qmul (wrap32 (log10Reduce x).2) (rom .log10Of2) 1 26 26 =
      wrap32 (rndShr ((log10Reduce x).2 * 20201781) 1) ∧
    ((log10Reduce x).2 % 2 = 1 → 2 * rndShr ((log10Reduce x).2 * 20201781) 1 = (log10Reduce x).2 * 20201781 + 1)

/-- The reduced domain of the reciprocal polynomial is `[1/sqrt 2, 1]` (`42_polynomial.md` R122), and `pinv` of a
positive operand is in `-5 .. 56` (R124). -/
def Obligations.InvReducesItsDomain : Prop :=
  ∀ x : Word, 0 < x.toInt →
    759250125 ≤ (invReduce x).toInt ∧ (invReduce x).toInt ≤ 2 ^ 30 ∧
    (invTakesRoot x = true → (invReduce x).toInt ≤ 1073741823) ∧
    (mantissa x = 759250125#32 → invReduce x = mantissa x) ∧
    ∀ px : Nat, px ≤ 31 → -5 ≤ exponent x px + 25 ∧ exponent x px + 25 ≤ 56

/-- Shift counts of 32 and more are meaningful and not reduced modulo 32 (`42_polynomial.md` R124): such a rounding
shift of a 32-bit raw is 0, such a left shift wraps to 0. -/
def Obligations.LongShiftsGiveZero : Prop :=
  ∀ (acc : Word) (n : Nat), 32 ≤ n → rndShr acc.toInt n = 0 ∧ wrap32 (shl acc.toInt n) = 0 ∧
    ∀ pinv fy : Int, (fy + n ≤ pinv ∨ pinv + n ≤ fy) → invRescale acc pinv fy = 0

/-- SIN at zero and its symmetry (`42_polynomial.md` R111): zero exactly at zero; the accumulators of `A` and `-A` are
equal; the results are opposite but where the last product is an exact half, where they differ by one unit. -/
def Obligations.SinIsOddExceptOnHalves : Prop :=
  sinValue 0 = 0 ∧
  ∀ x : Word, x ≠ 0x80000000#32 →
    sinAcc (-x) = sinAcc x ∧
    sinValue (-x) =
      if (sinAcc x).toInt * x.toInt % 2 ^ 30 = 2 ^ 29 then -sinValue x + 1 else -sinValue x

/-- The corner cases of POW's argument (`43_composition.md` R144 a, c, d): the sentinel's product for non-positive `x`
with the rule's three values, zero for `y = 0`, twice the logarithm for `y = 1.0`. -/
def Obligations.PowArgumentCornerCases : Prop :=
  ∀ x y : Word,
    (x.toInt ≤ 0 → powArg x y = wrap32 (rndShr (y.toInt * (-2013265920)) 29)) ∧
    powArg x 0 = 0 ∧
    powArg x 0x40000000#32 = wrap32 (2 * (logValue x).toInt) ∧
    powArg 0 0x40000000#32 = 0x10000000#32 ∧ powArg 0 0xC0000000#32 = 0xF0000000#32 ∧
    powArg 0 0x7FFFFFFF#32 = 0x20000004#32

/-- POW is LOG, QMUL and KNEEEXP in sequence, for every pair of collaborators (`43_composition.md` R130, R139;
`95_test_vectors.md` program 3): the words are the commands of that program. -/
def Obligations.PowIsLogQmulKneeexp : Prop :=
  ∀ (f g : Word → Word) (x y z z' : Word),
    execute f g 0x0000000C#32 x y =
      execute f g 0x0000000B#32
        (execute f g 0x001B69E0#32 y (execute f g 0x00000008#32 x z).y).y z'

/-- The build-time conversion (`00_scope.md` R19; `40_qarith.md` R76): on rationals it is the nearest integer, halves
upward, with the examples of the two rules, and agrees with the conversion of the real number; every one of the 32
entries of the constant table is what the conversion of its real value gives at its format, the printed decimal or the
mathematical constant `1/sqrt 2`, `sqrt 2`, `2/pi` (`10_state.md` R30). -/
def Obligations.TableIsTheConvertedLiterals : Prop :=
  (∀ (num q : Int) (den f : Nat), 0 < den →
    (fixedRat num den f = q ↔
      2 * den * q ≤ 2 * num * 2 ^ f + den ∧ 2 * num * 2 ^ f + den < 2 * den * (q + 1)) ∧
    (fixedRat num den f = q ↔ IsFixed ((num : ℝ) / den) f q)) ∧
  fixedRat (-17) 10 0 = -2 ∧ fixedRat (-12) 10 0 = -1 ∧ fixedRat (-15) 10 0 = -1 ∧ fixedRat 15 10 0 = 2 ∧
  fixedRat 1 1 26 = 67108864 ∧ fixedRat (-30) 1 26 = -2013265920 ∧
  (∀ (n : RomName) (r : ℝ), (romSource n).1.Denotes r → IsFixed r (romSource n).2 (rom n).toInt) ∧
  (2 * (rom .oneOverSqrt2).toInt - 1) ^ 2 < 2 ^ 61 ∧ 2 ^ 61 < (2 * (rom .oneOverSqrt2).toInt + 1) ^ 2 ∧
  (2 * (rom .sqrt2).toInt - 1) ^ 2 < 2 ^ 63 ∧ 2 ^ 63 < (2 * (rom .sqrt2).toInt + 1) ^ 2
end

