-- ==== Sys2Proof/Laws/Arith.lean ====
section
/-! SUPPORT. What the integer arithmetic does, said once: narrowing, rounding, the rescaler, the bit scan. -/

namespace Sys2Proof.Machine

/-- `wrap32` read back as signed is the balanced residue modulo `2 ^ 32`. -/
theorem wrap32_toInt (v : Int) : (wrap32 v).toInt = v.bmod (2 ^ 32) := by
  simp [wrap32, BitVec.toInt_ofInt]

/-- An integer in the signed 32-bit range survives narrowing. -/
theorem wrap32_toInt_of_fits {v : Int} (h1 : -(2 ^ 31) ≤ v) (h2 : v < 2 ^ 31) : (wrap32 v).toInt = v := by
  rw [wrap32_toInt, Int.bmod_def]
  split <;> omega

@[simp] theorem wrap32_self (x : Word) : wrap32 x.toInt = x := by
  simp [wrap32]

/-- The signed value of a word is in the signed 32-bit range. -/
theorem word_range (x : Word) : -(2 ^ 31) ≤ x.toInt ∧ x.toInt < 2 ^ 31 := by
  have h1 := BitVec.le_toInt x
  have h2 := BitVec.toInt_lt (x := x)
  omega

@[simp] theorem rndShr_zero (v : Int) : rndShr v 0 = v := by simp [rndShr]

/-- The rounding shift by `n + 1` as a floor division. -/
theorem rndShr_succ (v : Int) (n : Nat) : rndShr v (n + 1) = (v + 2 ^ n) / 2 ^ (n + 1) := by
  simp [rndShr]

/-- The rounding shift as its two bounds: the result is the integer nearest to `v / 2 ^ (n + 1)`, halves upward. -/
theorem rndShr_succ_eq_iff (v : Int) (n : Nat) (q : Int) :
    rndShr v (n + 1) = q ↔ q * 2 ^ (n + 1) ≤ v + 2 ^ n ∧ v + 2 ^ n < (q + 1) * 2 ^ (n + 1) := by
  rw [rndShr_succ]
  have hp : (0 : Int) < 2 ^ (n + 1) := by positivity
  constructor
  · rintro rfl
    exact ⟨Int.ediv_mul_le _ (ne_of_gt hp), Int.lt_ediv_add_one_mul_self _ hp⟩
  · rintro ⟨h1, h2⟩
    apply le_antisymm
    · exact Int.lt_add_one_iff.mp ((Int.ediv_lt_iff_lt_mul hp).mpr h2)
    · exact (Int.le_ediv_iff_mul_le hp).mpr h1

/-- The rounding shift is monotonic. -/
theorem rndShr_mono {v w : Int} (h : v ≤ w) (n : Nat) : rndShr v n ≤ rndShr w n := by
  cases n with
  | zero => simpa using h
  | succ n =>
    rw [rndShr_succ, rndShr_succ]
    exact Int.ediv_le_ediv (by positivity) (by omega)

/-- The constant conversion as its two bounds: the integer nearest to `r * 2 ^ f`, halves upward. -/
theorem isFixed_iff (r : ℝ) (f : Nat) (q : Int) :
    IsFixed r f q ↔ (q : ℝ) ≤ r * 2 ^ f + 1 / 2 ∧ r * 2 ^ f + 1 / 2 < q + 1 := by
  rw [IsFixed, eq_comm, Int.floor_eq_iff]

/-- The product of two words is in the range that `10_state.md` R28 gives. -/
theorem mul_range (x z : Word) :
    -(2 ^ 62 - 2 ^ 31) ≤ x.toInt * z.toInt ∧ x.toInt * z.toInt ≤ 2 ^ 62 := by
  obtain ⟨hx1, hx2⟩ := word_range x
  obtain ⟨hz1, hz2⟩ := word_range z
  constructor <;> nlinarith

/-- The loop of the scan ends at or below its counter. -/
theorem scanFrom_le (x : Word) (n : Nat) : scanFrom x n ≤ n := by
  induction n with
  | zero => simp [scanFrom]
  | succ n ih =>
    simp only [scanFrom]
    split <;> omega

/-- `scan` is at most 31 (`41_range_reducer.md` R91). -/
theorem scan_le (x : Word) : scan x ≤ 31 := scanFrom_le x 31

/-- The loop of the scan stops at `k + 1` exactly when bit `k` is the highest set bit below its counter. -/
theorem scanFrom_eq_succ_iff (x : Word) (n k : Nat) :
    scanFrom x n = k + 1 ↔ k < n ∧ x.getLsbD k = true ∧ ∀ j, k < j → j < n → x.getLsbD j = false := by
  induction n with
  | zero => simp [scanFrom]
  | succ n ih =>
    simp only [scanFrom]
    split
    case isTrue h =>
      constructor
      · intro hk
        obtain rfl : n = k := by omega
        exact ⟨by omega, h, fun j h1 h2 => by omega⟩
      · rintro ⟨h1, h2, h3⟩
        by_contra hne
        have := h3 n (by omega) (by omega)
        simp [h] at this
    case isFalse h =>
      rw [ih]
      constructor
      · rintro ⟨h1, h2, h3⟩
        refine ⟨by omega, h2, fun j hj1 hj2 => ?_⟩
        rcases Nat.lt_or_ge j n with hj | hj
        · exact h3 j hj1 hj
        · obtain rfl : j = n := by omega
          simpa using h
      · rintro ⟨h1, h2, h3⟩
        have hkn : k ≠ n := by
          rintro rfl
          exact h h2
        exact ⟨by omega, h2, fun j hj1 hj2 => h3 j hj1 (by omega)⟩

/-- The loop of the scan ends at 0 exactly when no bit below its counter is set. -/
theorem scanFrom_eq_zero_iff (x : Word) (n : Nat) :
    scanFrom x n = 0 ↔ ∀ j, j < n → x.getLsbD j = false := by
  induction n with
  | zero => simp [scanFrom]
  | succ n ih =>
    simp only [scanFrom]
    split
    case isTrue h =>
      constructor
      · intro hk
        omega
      · intro hall
        have := hall n (by omega)
        simp [h] at this
    case isFalse h =>
      rw [ih]
      constructor
      · intro hall j hj
        rcases Nat.lt_or_ge j n with hj' | hj'
        · exact hall j hj'
        · obtain rfl : j = n := by omega
          simpa using h
      · intro hall j hj
        exact hall j (by omega)

end Sys2Proof.Machine
end

