-- ==== Sys2Proof/Laws/State.lean ====
section
/-! SUPPORT. One lemma per field and update of the state, each by rfl, so that no proof unfolds a record update. -/

namespace Sys2Proof.Machine

@[simp] theorem respond_phase (r : Response) (s : State) : (respond r s).phase = .resp := rfl
@[simp] theorem respond_cmd (r : Response) (s : State) : (respond r s).cmd = s.cmd := rfl
@[simp] theorem respond_a (r : Response) (s : State) : (respond r s).a = s.a := rfl
@[simp] theorem respond_b (r : Response) (s : State) : (respond r s).b = s.b := rfl
@[simp] theorem respond_y (r : Response) (s : State) : (respond r s).y = r.y := rfl
@[simp] theorem respond_e (r : Response) (s : State) : (respond r s).e = r.e := rfl
@[simp] theorem respond_status (r : Response) (s : State) : (respond r s).status = r.status := rfl
@[simp] theorem respond_ext (r : Response) (s : State) : (respond r s).ext = s.ext := rfl
@[simp] theorem respond_inputs (r : Response) (s : State) : (respond r s).inputs = s.inputs := rfl

@[simp] theorem complete_phase (v : Word) (x : ExpByte) (s : State) : (complete v x s).phase = .resp := rfl
@[simp] theorem complete_cmd (v : Word) (x : ExpByte) (s : State) : (complete v x s).cmd = s.cmd := rfl
@[simp] theorem complete_a (v : Word) (x : ExpByte) (s : State) : (complete v x s).a = s.a := rfl
@[simp] theorem complete_b (v : Word) (x : ExpByte) (s : State) : (complete v x s).b = s.b := rfl
@[simp] theorem complete_y (v : Word) (x : ExpByte) (s : State) : (complete v x s).y = v := rfl
@[simp] theorem complete_e (v : Word) (x : ExpByte) (s : State) : (complete v x s).e = x := rfl
@[simp] theorem complete_status (v : Word) (x : ExpByte) (s : State) : (complete v x s).status = statusOk := rfl
@[simp] theorem complete_ext (v : Word) (x : ExpByte) (s : State) : (complete v x s).ext = s.ext := rfl
@[simp] theorem complete_inputs (v : Word) (x : ExpByte) (s : State) : (complete v x s).inputs = s.inputs := rfl

@[simp] theorem raiseCmdError_phase (c : CmdError) (s : State) : (raiseCmdError c s).phase = .resp := rfl
@[simp] theorem raiseCmdError_cmd (c : CmdError) (s : State) : (raiseCmdError c s).cmd = s.cmd := rfl
@[simp] theorem raiseCmdError_a (c : CmdError) (s : State) : (raiseCmdError c s).a = s.a := rfl
@[simp] theorem raiseCmdError_b (c : CmdError) (s : State) : (raiseCmdError c s).b = s.b := rfl
@[simp] theorem raiseCmdError_y (c : CmdError) (s : State) : (raiseCmdError c s).y = 0 := rfl
@[simp] theorem raiseCmdError_e (c : CmdError) (s : State) : (raiseCmdError c s).e = 0 := rfl
@[simp] theorem raiseCmdError_status (c : CmdError) (s : State) : (raiseCmdError c s).status = errorStatus c := rfl
@[simp] theorem raiseCmdError_ext (c : CmdError) (s : State) : (raiseCmdError c s).ext = s.ext := rfl
@[simp] theorem raiseCmdError_inputs (c : CmdError) (s : State) : (raiseCmdError c s).inputs = s.inputs := rfl

@[simp] theorem issueCall_phase (sel : ExtSel) (v : Word) (s : State) : (issueCall sel v s).phase = .waitExt := rfl
@[simp] theorem issueCall_cmd (sel : ExtSel) (v : Word) (s : State) : (issueCall sel v s).cmd = s.cmd := rfl
@[simp] theorem issueCall_a (sel : ExtSel) (v : Word) (s : State) : (issueCall sel v s).a = s.a := rfl
@[simp] theorem issueCall_b (sel : ExtSel) (v : Word) (s : State) : (issueCall sel v s).b = s.b := rfl
@[simp] theorem issueCall_y (sel : ExtSel) (v : Word) (s : State) : (issueCall sel v s).y = s.y := rfl
@[simp] theorem issueCall_e (sel : ExtSel) (v : Word) (s : State) : (issueCall sel v s).e = s.e := rfl
@[simp] theorem issueCall_status (sel : ExtSel) (v : Word) (s : State) : (issueCall sel v s).status = s.status := rfl
@[simp] theorem issueCall_ext (sel : ExtSel) (v : Word) (s : State) : (issueCall sel v s).ext = some ⟨sel, v⟩ := rfl
@[simp] theorem issueCall_inputs (sel : ExtSel) (v : Word) (s : State) : (issueCall sel v s).inputs = s.inputs := rfl

@[simp] theorem extPort_issueCall (sel : ExtSel) (v : Word) (s : State) :
    extPort (issueCall sel v s) = some (extSelCode sel, v) := rfl
@[simp] theorem extPort_respond (r : Response) (s : State) : extPort (respond r s) = extPort s := rfl
@[simp] theorem extPort_resetBlock (s : State) : extPort (resetBlock s) = none := rfl
@[simp] theorem extPort_waiting (s : State) (sel : ExtSel) (v : Word) :
    extPort (waiting s sel v) = some (extSelCode sel, v) := rfl

@[simp] theorem resetBlock_phase (s : State) : (resetBlock s).phase = .idle := rfl
@[simp] theorem resetBlock_cmd (s : State) : (resetBlock s).cmd = 0 := rfl
@[simp] theorem resetBlock_a (s : State) : (resetBlock s).a = 0 := rfl
@[simp] theorem resetBlock_b (s : State) : (resetBlock s).b = 0 := rfl
@[simp] theorem resetBlock_y (s : State) : (resetBlock s).y = 0 := rfl
@[simp] theorem resetBlock_e (s : State) : (resetBlock s).e = 0 := rfl
@[simp] theorem resetBlock_status (s : State) : (resetBlock s).status = 0 := rfl
@[simp] theorem resetBlock_ext (s : State) : (resetBlock s).ext = none := rfl
@[simp] theorem resetBlock_inputs (s : State) : (resetBlock s).inputs = s.inputs := rfl

@[simp] theorem answered_phase (s : State) (v : Word) (x : ExpByte) : (answered s v x).phase = .resp := rfl
@[simp] theorem answered_cmd (s : State) (v : Word) (x : ExpByte) : (answered s v x).cmd = s.cmd := rfl
@[simp] theorem answered_a (s : State) (v : Word) (x : ExpByte) : (answered s v x).a = s.a := rfl
@[simp] theorem answered_b (s : State) (v : Word) (x : ExpByte) : (answered s v x).b = s.b := rfl
@[simp] theorem answered_y (s : State) (v : Word) (x : ExpByte) : (answered s v x).y = v := rfl
@[simp] theorem answered_e (s : State) (v : Word) (x : ExpByte) : (answered s v x).e = x := rfl
@[simp] theorem answered_status (s : State) (v : Word) (x : ExpByte) : (answered s v x).status = 0#2 := rfl
@[simp] theorem answered_ext (s : State) (v : Word) (x : ExpByte) : (answered s v x).ext = s.ext := rfl
@[simp] theorem answered_inputs (s : State) (v : Word) (x : ExpByte) : (answered s v x).inputs = s.inputs := rfl

@[simp] theorem errored_phase (s : State) (code : StatusBits) : (errored s code).phase = .resp := rfl
@[simp] theorem errored_cmd (s : State) (code : StatusBits) : (errored s code).cmd = s.cmd := rfl
@[simp] theorem errored_a (s : State) (code : StatusBits) : (errored s code).a = s.a := rfl
@[simp] theorem errored_b (s : State) (code : StatusBits) : (errored s code).b = s.b := rfl
@[simp] theorem errored_y (s : State) (code : StatusBits) : (errored s code).y = 0#32 := rfl
@[simp] theorem errored_e (s : State) (code : StatusBits) : (errored s code).e = 0#8 := rfl
@[simp] theorem errored_status (s : State) (code : StatusBits) : (errored s code).status = code := rfl
@[simp] theorem errored_ext (s : State) (code : StatusBits) : (errored s code).ext = s.ext := rfl
@[simp] theorem errored_inputs (s : State) (code : StatusBits) : (errored s code).inputs = s.inputs := rfl

@[simp] theorem waiting_phase (s : State) (sel : ExtSel) (v : Word) : (waiting s sel v).phase = .waitExt := rfl
@[simp] theorem waiting_cmd (s : State) (sel : ExtSel) (v : Word) : (waiting s sel v).cmd = s.cmd := rfl
@[simp] theorem waiting_a (s : State) (sel : ExtSel) (v : Word) : (waiting s sel v).a = s.a := rfl
@[simp] theorem waiting_b (s : State) (sel : ExtSel) (v : Word) : (waiting s sel v).b = s.b := rfl
@[simp] theorem waiting_y (s : State) (sel : ExtSel) (v : Word) : (waiting s sel v).y = s.y := rfl
@[simp] theorem waiting_e (s : State) (sel : ExtSel) (v : Word) : (waiting s sel v).e = s.e := rfl
@[simp] theorem waiting_status (s : State) (sel : ExtSel) (v : Word) : (waiting s sel v).status = s.status := rfl
@[simp] theorem waiting_ext (s : State) (sel : ExtSel) (v : Word) : (waiting s sel v).ext = some ⟨sel, v⟩ := rfl
@[simp] theorem waiting_inputs (s : State) (sel : ExtSel) (v : Word) : (waiting s sel v).inputs = s.inputs := rfl

@[simp] theorem holdCommand_phase (w : Word) (s : State) : (holdCommand w s).phase = .exec := rfl
@[simp] theorem holdCommand_cmd (w : Word) (s : State) : (holdCommand w s).cmd = w := rfl
@[simp] theorem holdCommand_a (w : Word) (s : State) : (holdCommand w s).a = s.a := rfl
@[simp] theorem holdCommand_b (w : Word) (s : State) : (holdCommand w s).b = s.b := rfl
@[simp] theorem holdCommand_y (w : Word) (s : State) : (holdCommand w s).y = s.y := rfl
@[simp] theorem holdCommand_e (w : Word) (s : State) : (holdCommand w s).e = s.e := rfl
@[simp] theorem holdCommand_status (w : Word) (s : State) : (holdCommand w s).status = s.status := rfl
@[simp] theorem holdCommand_ext (w : Word) (s : State) : (holdCommand w s).ext = s.ext := rfl
@[simp] theorem holdCommand_inputs (w : Word) (s : State) : (holdCommand w s).inputs = s.inputs.dropWhile (fun ev => ev == .reset) := rfl

end Sys2Proof.Machine
end

