-- ==== Sys2Proof/Laws/Ops.lean ====
section
/-! SUPPORT. What each shared move can do, said once; proofs cite these and do not unfold the moves. -/

namespace Sys2Proof.Machine

/-- `whenLegal` always answers a next state: the operation's own, or the error response. -/
theorem whenLegal_next_iff (i : Instr) (t s u : State) :
    whenLegal i t s = .next u ↔
      (i.wellFormed = true ∧ u = t) ∨ (i.wellFormed = false ∧ u = raiseCmdError .badParam s) := by
  cases h : i.wellFormed <;> simp [whenLegal, h, eq_comm]

theorem whenLegal_legal {i : Instr} (h : i.wellFormed = true) (t s : State) : whenLegal i t s = .next t := by
  simp [whenLegal, h]

theorem whenLegal_illegal {i : Instr} (h : i.wellFormed = false) (t s : State) :
    whenLegal i t s = .next (raiseCmdError .badParam s) := by
  simp [whenLegal, h]

@[simp] theorem extValue_exp (v : Word) : extValue ⟨.exp, v⟩ = Config.extExp v := rfl

@[simp] theorem extValue_db2lin (v : Word) : extValue ⟨.db2lin, v⟩ = Config.extDb2lin v := rfl

/-- The port tells the two collaborators apart. -/
theorem extSelCode_injective {p q : ExtSel} (h : extSelCode p = extSelCode q) : p = q := by
  cases p <;> cases q <;> first | rfl | exact absurd h (by decide)

/-- What the port drives is the outstanding call, no more and no less. -/
theorem extPort_eq_some_iff (s : State) (sel : ExtSel) (v : Word) :
    extPort s = some (extSelCode sel, v) ↔ s.ext = some ⟨sel, v⟩ := by
  cases hc : s.ext with
  | none => simp [extPort, hc]
  | some c =>
    obtain ⟨sel', v'⟩ := c
    have hinj : extSelCode sel' = extSelCode sel ↔ sel' = sel :=
      ⟨extSelCode_injective, congrArg extSelCode⟩
    simp [extPort, hc, hinj]

theorem acceptRequest_idle {s : State} (h : s.phase = .idle) (r : Request) :
    acceptRequest r s = { s with phase := .exec, cmd := r.cmd, a := r.a, b := r.b } := by
  simp [acceptRequest, h]

theorem acceptRequest_busy {s : State} (h : s.phase ≠ .idle) (r : Request) : acceptRequest r s = s := by
  cases hp : s.phase <;> simp_all [acceptRequest]

theorem receiveAnswer_waiting {s : State} {c : ExtRequest} (h : s.phase = .waitExt) (hc : s.ext = some c) :
    receiveAnswer s = complete (extValue c) 0 { s with ext := none } := by
  simp [receiveAnswer, h, hc]

theorem receiveAnswer_none {s : State} (hc : s.ext = none) : receiveAnswer s = s := by
  cases hp : s.phase <;> simp [receiveAnswer, hp, hc]

theorem receiveAnswer_elsewhere {s : State} (h : s.phase ≠ .waitExt) : receiveAnswer s = s := by
  cases hp : s.phase <;> cases hc : s.ext <;> simp_all [receiveAnswer]

theorem takeResponse_offered {s : State} (h : s.phase = .resp) : takeResponse s = { s with phase := .idle } := by
  simp [takeResponse, h]

theorem takeResponse_elsewhere {s : State} (h : s.phase ≠ .resp) : takeResponse s = s := by
  cases hp : s.phase <;> simp_all [takeResponse]

/-- No event of the outside world changes what the outside world does next. -/
theorem deliver_inputs (ev : Event) (s : State) : (deliver ev s).inputs = s.inputs := by
  cases ev with
  | request r => cases hp : s.phase <;> simp [deliver, acceptRequest, hp]
  | extAnswer => cases hp : s.phase <;> cases hc : s.ext <;> simp [deliver, receiveAnswer, hp, hc]
  | strayAnswer v => rfl
  | take => cases hp : s.phase <;> simp [deliver, takeResponse, hp]
  | reset => rfl

theorem readResponse_offered {s : State} (h : s.phase = .resp) : readResponse s = .ok ⟨s.y, s.e, s.status⟩ := by
  simp [readResponse, responseValid, h]

theorem readResponse_elsewhere {s : State} (h : s.phase ≠ .resp) : readResponse s = .error .responseNotOffered := by
  simp [readResponse, responseValid, h]

/-- Everything an operation can do: produce a response, or issue the one external call that is its own. -/
theorem exec_cases (i : Instr) (s : State) :
    (externalCall i s.a s.b = none ∧ ∃ r, exec i s = .next (respond r s)) ∨
      ∃ c, externalCall i s.a s.b = some c ∧ exec i s = .next (issueCall c.sel c.arg s) := by
  have legal : ∀ (j : Instr) (v : Word) (x : ExpByte), ∃ r, whenLegal j (complete v x s) s = .next (respond r s) := by
    intro j v x
    cases h : j.wellFormed
    · exact ⟨_, whenLegal_illegal h _ _⟩
    · exact ⟨_, whenLegal_legal h _ _⟩
  cases i with
  | qmul fa fb fy => exact .inl ⟨rfl, legal _ _ _⟩
  | qshr fa fy => exact .inl ⟨rfl, legal _ _ _⟩
  | qshl fa fy => exact .inl ⟨rfl, legal _ _ _⟩
  | rexp fa => exact .inl ⟨rfl, legal _ _ _⟩
  | log10 => exact .inl ⟨rfl, _, rfl⟩
  | sin => exact .inl ⟨rfl, _, rfl⟩
  | asin => exact .inl ⟨rfl, _, rfl⟩
  | inv fa fy => exact .inl ⟨rfl, legal _ _ _⟩
  | log => exact .inl ⟨rfl, _, rfl⟩
  | lin2db => exact .inl ⟨rfl, _, rfl⟩
  | db2lin => exact .inr ⟨_, rfl, rfl⟩
  | kneeexp => exact .inr ⟨_, rfl, rfl⟩
  | pow => exact .inr ⟨_, rfl, rfl⟩

end Sys2Proof.Machine
end

