-- ==== Sys2Proof/Laws/Step.lean ====
section
/-! SUPPORT. What a step can do, said once: an asserted reset, the held command, or one event at the ports. -/

namespace Sys2Proof.Machine

/-- An asserted reset wins in every phase. -/
theorem step_reset {s : State} (h : resetAsserted s = true) : step s = .next (takeInput s) := by
  simp [step, advance, h]

/-- With no reset asserted, EXEC runs the held command. -/
theorem step_executing {s : State} (h : Executing s) : step s = runCommand s := by
  simp [step, advance, h.1, h.2]

/-- Outside EXEC the block looks at its ports. -/
theorem step_ports {s : State} (h : s.phase ≠ .exec) : step s = .next (takeInput s) := by
  cases hr : resetAsserted s
  · cases hp : s.phase <;> simp_all [step, advance]
  · exact step_reset hr

/-- What running the held command can do: its command error, the response of its operation, or the call of its
operation. -/
theorem runCommand_cases (s : State) :
    (∃ c, decode s.cmd = .error c ∧ runCommand s = .next (raiseCmdError c s)) ∨
      (∃ i r, decode s.cmd = .ok i ∧ externalCall i s.a s.b = none ∧ exec i s = .next (respond r s) ∧
        runCommand s = .next (respond r s)) ∨
      ∃ i c, decode s.cmd = .ok i ∧ externalCall i s.a s.b = some c ∧
        exec i s = .next (issueCall c.sel c.arg s) ∧ runCommand s = .next (issueCall c.sel c.arg s) := by
  cases hd : decode s.cmd with
  | error c => exact .inl ⟨c, rfl, by simp [runCommand, hd]⟩
  | ok i =>
    have hr : runCommand s = exec i s := by simp [runCommand, hd]
    rcases exec_cases i s with ⟨hc, r, he⟩ | ⟨c, hc, he⟩
    · exact .inr (.inl ⟨i, r, rfl, hc, he, hr.trans he⟩)
    · exact .inr (.inr ⟨i, c, rfl, hc, he, hr.trans he⟩)

/-- What a step can do. -/
theorem step_cases {s t : State} (h : step s = .next t) :
    (s.inputs = [] ∧ s.phase ≠ .exec ∧ t = s) ∨
      (∃ ev rest, s.inputs = ev :: rest ∧ (s.phase ≠ .exec ∨ ev = .reset) ∧
        t = deliver ev { s with inputs := rest }) ∨
      (Executing s ∧ runCommand s = .next t) := by
  by_cases hx : Executing s
  · exact .inr (.inr ⟨hx, (step_executing hx).symm.trans h⟩)
  · have ht : t = takeInput s := by
      have hp : step s = .next (takeInput s) := by
        by_cases hp : s.phase = .exec
        · exact step_reset (by simpa [Executing, hp] using hx)
        · exact step_ports hp
      rw [hp] at h
      exact (Host.Outcome.next.inj h).symm
    cases hi : s.inputs with
    | nil =>
      refine .inl ⟨rfl, ?_, by simp [ht, takeInput, hi]⟩
      intro hp
      exact hx ⟨hp, by simp [resetAsserted, hi]⟩
    | cons ev rest =>
      refine .inr (.inl ⟨ev, rest, rfl, ?_, by simp [ht, takeInput, hi]⟩)
      by_cases hp : s.phase = .exec
      · right
        by_contra hev
        exact hx ⟨hp, by simp [resetAsserted, hi, hev]⟩
      · exact .inl hp

/-! What the decoder reads, one row of `30_encoding.md` R58 a lemma. -/

theorem decode_qmul (cmd : Word) (h : opField cmd = 0#4) :
    decode cmd = if rsvField cmd = 0 then .ok (.qmul (faField cmd) (fbField cmd) (fyField cmd)) else .error .reservedField := by
  have ho : (opField cmd).toNat = 0 := by rw [h]; rfl
  by_cases hr : rsvField cmd = 0#10 <;> simp [decode, ho, hr]

theorem decode_qshr (cmd : Word) (h : opField cmd = 1#4) :
    decode cmd = if rsvField cmd = 0 ∧ fbField cmd = 0 then .ok (.qshr (faField cmd) (fyField cmd)) else .error .reservedField := by
  have ho : (opField cmd).toNat = 1 := by rw [h]; rfl
  by_cases hr : rsvField cmd = 0#10 <;> simp [decode, ho, hr, unlessReserved]

theorem decode_qshl (cmd : Word) (h : opField cmd = 2#4) :
    decode cmd = if rsvField cmd = 0 ∧ fbField cmd = 0 then .ok (.qshl (faField cmd) (fyField cmd)) else .error .reservedField := by
  have ho : (opField cmd).toNat = 2 := by rw [h]; rfl
  by_cases hr : rsvField cmd = 0#10 <;> simp [decode, ho, hr, unlessReserved]

theorem decode_rexp (cmd : Word) (h : opField cmd = 3#4) :
    decode cmd = if rsvField cmd = 0 ∧ fbField cmd = 0 ∧ fyField cmd = 0 then .ok (.rexp (faField cmd)) else .error .reservedField := by
  have ho : (opField cmd).toNat = 3 := by rw [h]; rfl
  by_cases hr : rsvField cmd = 0#10 <;> simp [decode, ho, hr, unlessReserved]

theorem decode_inv (cmd : Word) (h : opField cmd = 7#4) :
    decode cmd = if rsvField cmd = 0 ∧ fbField cmd = 0 then .ok (.inv (faField cmd) (fyField cmd)) else .error .reservedField := by
  have ho : (opField cmd).toNat = 7 := by rw [h]; rfl
  by_cases hr : rsvField cmd = 0#10 <;> simp [decode, ho, hr, unlessReserved]

theorem decode_log10 (cmd : Word) (h : opField cmd = 4#4) :
    decode cmd = if FieldsZero cmd then .ok .log10 else .error .reservedField := by
  have ho : (opField cmd).toNat = 4 := by rw [h]; rfl
  by_cases hr : rsvField cmd = 0#10 <;> simp [decode, ho, hr, unlessReserved, FieldsZero]

theorem decode_sin (cmd : Word) (h : opField cmd = 5#4) :
    decode cmd = if FieldsZero cmd then .ok .sin else .error .reservedField := by
  have ho : (opField cmd).toNat = 5 := by rw [h]; rfl
  by_cases hr : rsvField cmd = 0#10 <;> simp [decode, ho, hr, unlessReserved, FieldsZero]

theorem decode_asin (cmd : Word) (h : opField cmd = 6#4) :
    decode cmd = if FieldsZero cmd then .ok .asin else .error .reservedField := by
  have ho : (opField cmd).toNat = 6 := by rw [h]; rfl
  by_cases hr : rsvField cmd = 0#10 <;> simp [decode, ho, hr, unlessReserved, FieldsZero]

theorem decode_log (cmd : Word) (h : opField cmd = 8#4) :
    decode cmd = if FieldsZero cmd then .ok .log else .error .reservedField := by
  have ho : (opField cmd).toNat = 8 := by rw [h]; rfl
  by_cases hr : rsvField cmd = 0#10 <;> simp [decode, ho, hr, unlessReserved, FieldsZero]

theorem decode_lin2db (cmd : Word) (h : opField cmd = 9#4) :
    decode cmd = if FieldsZero cmd then .ok .lin2db else .error .reservedField := by
  have ho : (opField cmd).toNat = 9 := by rw [h]; rfl
  by_cases hr : rsvField cmd = 0#10 <;> simp [decode, ho, hr, unlessReserved, FieldsZero]

theorem decode_db2lin (cmd : Word) (h : opField cmd = 10#4) :
    decode cmd = if FieldsZero cmd then .ok .db2lin else .error .reservedField := by
  have ho : (opField cmd).toNat = 10 := by rw [h]; rfl
  by_cases hr : rsvField cmd = 0#10 <;> simp [decode, ho, hr, unlessReserved, FieldsZero]

theorem decode_kneeexp (cmd : Word) (h : opField cmd = 11#4) :
    decode cmd = if FieldsZero cmd then .ok .kneeexp else .error .reservedField := by
  have ho : (opField cmd).toNat = 11 := by rw [h]; rfl
  by_cases hr : rsvField cmd = 0#10 <;> simp [decode, ho, hr, unlessReserved, FieldsZero]

theorem decode_pow (cmd : Word) (h : opField cmd = 12#4) :
    decode cmd = if FieldsZero cmd then .ok .pow else .error .reservedField := by
  have ho : (opField cmd).toNat = 12 := by rw [h]; rfl
  by_cases hr : rsvField cmd = 0#10 <;> simp [decode, ho, hr, unlessReserved, FieldsZero]

/-- An operation without parameters runs, or the command is answered by `RESERVED_FIELD`. -/
theorem runCommand_noFields {s : State} {i : Instr}
    (h : decode s.cmd = if FieldsZero s.cmd then .ok i else .error .reservedField) :
    runCommand s = if FieldsZero s.cmd then exec i s else .next (raiseCmdError .reservedField s) := by
  by_cases hz : FieldsZero s.cmd
  · rw [if_pos hz] at h ⊢
    simp [runCommand, h]
  · rw [if_neg hz] at h ⊢
    simp [runCommand, h]

end Sys2Proof.Machine
end

