-- ==== Sys2Proof/Tests/Slice0.lean ====
section
/-! SUPPORT. Tests of single checks, words and steps, and a witness for the hypotheses of each statement. Expected values are those of `95_test_vectors.md` unless a comment says otherwise. -/

namespace Sys2Proof.Tests

open Sys2Proof.Machine

/-! ## WellFormed: an ill-formed operation for each check of `30_encoding.md` R61 -/

theorem test_wellFormed_qmul_fa : (Instr.qmul 32 0 0).wellFormed = false := by decide
theorem test_wellFormed_qmul_fb : (Instr.qmul 0 32 0).wellFormed = false := by decide
theorem test_wellFormed_qmul_fy : (Instr.qmul 31 31 32).wellFormed = false := by decide
theorem test_wellFormed_qmul_sum : (Instr.qmul 10 10 21).wellFormed = false := by decide
theorem test_wellFormed_qmul_edge : (Instr.qmul 10 10 20).wellFormed = true := by decide
theorem test_wellFormed_qshr_fa : (Instr.qshr 32 0).wellFormed = false := by decide
theorem test_wellFormed_qshr_fy : (Instr.qshr 31 32).wellFormed = false := by decide
theorem test_wellFormed_qshr_order : (Instr.qshr 5 6).wellFormed = false := by decide
theorem test_wellFormed_qshl_fa : (Instr.qshl 32 31).wellFormed = false := by decide
theorem test_wellFormed_qshl_fy : (Instr.qshl 0 32).wellFormed = false := by decide
theorem test_wellFormed_qshl_order : (Instr.qshl 6 5).wellFormed = false := by decide
theorem test_wellFormed_rexp_fa : (Instr.rexp 33).wellFormed = false := by decide
theorem test_wellFormed_inv_fa : (Instr.inv 40 26).wellFormed = false := by decide
theorem test_wellFormed_inv_fy : (Instr.inv 26 63).wellFormed = false := by decide
theorem test_wellFormed_inv_edge : (Instr.inv 31 31).wellFormed = true := by decide

/-! ## Decode: one word a constructor, written out from `30_encoding.md` R56, R58: `RSV FY FB FA OP` -/

theorem test_decode_qmul : checkCommand 0b0000000000_011110_011110_011110_0000#32 = .ok (.qmul 30 30 30) := by decide
theorem test_decode_qmul_order : checkCommand 0b0000000000_011010_011010_000001_0000#32 = .ok (.qmul 1 26 26) := by
  decide
theorem test_decode_qshr : checkCommand 0b0000000000_010101_000000_011010_0001#32 = .ok (.qshr 26 21) := by decide
theorem test_decode_qshl : checkCommand 0b0000000000_011110_000000_011010_0010#32 = .ok (.qshl 26 30) := by decide
theorem test_decode_rexp : checkCommand 0b0000000000_000000_000000_010000_0011#32 = .ok (.rexp 16) := by decide
theorem test_decode_log10 : checkCommand 0b0000000000_000000_000000_000000_0100#32 = .ok .log10 := by decide
theorem test_decode_sin : checkCommand 0b0000000000_000000_000000_000000_0101#32 = .ok .sin := by decide
theorem test_decode_asin : checkCommand 0b0000000000_000000_000000_000000_0110#32 = .ok .asin := by decide
theorem test_decode_inv : checkCommand 0b0000000000_001100_000000_010100_0111#32 = .ok (.inv 20 12) := by decide
theorem test_decode_log : checkCommand 0b0000000000_000000_000000_000000_1000#32 = .ok .log := by decide
theorem test_decode_lin2db : checkCommand 0b0000000000_000000_000000_000000_1001#32 = .ok .lin2db := by decide
theorem test_decode_db2lin : checkCommand 0b0000000000_000000_000000_000000_1010#32 = .ok .db2lin := by decide
theorem test_decode_kneeexp : checkCommand 0b0000000000_000000_000000_000000_1011#32 = .ok .kneeexp := by decide
theorem test_decode_pow : checkCommand 0b0000000000_000000_000000_000000_1100#32 = .ok .pow := by decide

/-- The error rows of section 2.13 that need the order of the checks. -/
theorem test_decode_errors :
    checkCommand 0x0000000D#32 = .error .illegalOp ∧ checkCommand 0x0000000F#32 = .error .illegalOp ∧
    checkCommand 0x80000004#32 = .error .reservedField ∧ checkCommand 0x00000405#32 = .error .reservedField ∧
    checkCommand 0x00060C51#32 = .error .reservedField ∧ checkCommand 0x00060051#32 = .error .badParam ∧
    checkCommand 0x0040028D#32 = .error .reservedField ∧ checkCommand 0x0000028D#32 = .error .illegalOp ∧
    checkCommand 0x00000285#32 = .error .reservedField ∧ checkCommand 0x003FFFFC#32 = .error .reservedField ∧
    checkCommand 0x000101A3#32 = .error .reservedField ∧ checkCommand 0x003F01A7#32 = .error .badParam := by decide

theorem test_decodeTableWord :
    decodeTableWord 32 0x001A01A7 = some (.inv 26 26) ∧ decodeTableWord 32 0x0000000D = none := by decide

/-! ## One step each -/

/-- A block that has just accepted the request `cmd`, `x`, `z` and hears nothing more. -/
def held (cmd x z : Word) : State := { State.reset with phase := .exec, cmd := cmd, a := x, b := z }

/-- The response on offer after one step of `held cmd x z`. -/
def answerOf (cmd x z : Word) : Option Response :=
  match step (held cmd x z) with
  | .next t => (readResponse t).toOption
  | .fault _ => none
  | .refused _ => none

/-- The call outstanding after one step of `held cmd x z`. -/
def callOf (cmd x z : Word) : Option ExtRequest := (nextOf (step (held cmd x z))).bind (fun t => t.ext)

theorem test_qmul_tie : answerOf 0x00000010#32 0xFFFFFFFD#32 1#32 = some ⟨0xFFFFFFFF#32, 0, 0⟩ := by decide
theorem test_qmul_wide : answerOf 0x001F7DF0#32 0x7FFFFFFF#32 0x7FFFFFFF#32 = some ⟨0x7FFFFFFE#32, 0, 0⟩ := by decide
theorem test_qshr_tie : answerOf 0x00000011#32 0xFFFFFFFB#32 0 = some ⟨0xFFFFFFFE#32, 0, 0⟩ := by decide
theorem test_qshr_places : answerOf 0x001501A1#32 0xF8A432EB#32 0 = some ⟨0xFFC52197#32, 0, 0⟩ := by decide
theorem test_qshl_wraps : answerOf 0x001E0002#32 0x00000003#32 0 = some ⟨0xC0000000#32, 0, 0⟩ := by decide
theorem test_qshl_equal : answerOf 0x001A01A2#32 0x12345678#32 0 = some ⟨0x12345678#32, 0, 0⟩ := by decide
theorem test_rexp_smallest : answerOf 0x000001A3#32 1#32 0 = some ⟨0x20000000#32, 0xE7#8, 0⟩ := by decide
theorem test_rexp_negative : answerOf 0x00000003#32 0xFFFFFFFB#32 0 = some ⟨0xFFFFFFFE#32, 31#8, 0⟩ := by decide
theorem test_log10_ten : answerOf 0x00000004#32 0x28000000#32 0 = some ⟨0x03FFFFFF#32, 0, 0⟩ := by decide +kernel
theorem test_log10_folded : answerOf 0x00000004#32 0x02D413CD#32 0 = some ⟨0xFF65DF6A#32, 0, 0⟩ := by decide +kernel
theorem test_sin_half : answerOf 0x00000005#32 0xE0000000#32 0 = some ⟨0xD2BEC0BA#32, 0, 0⟩ := by decide
theorem test_sin_outside : answerOf 0x00000005#32 0x7FFFFFFF#32 0 = some ⟨0xC90FAE04#32, 0, 0⟩ := by decide
theorem test_asin_threshold : answerOf 0x00000006#32 0x2D413CCD#32 0 = some ⟨0x1FFFCD49#32, 0, 0⟩ := by decide
theorem test_asin_high : answerOf 0x00000006#32 0xD2BEC332#32 0 = some ⟨0xE141CCED#32, 0, 0⟩ := by decide
theorem test_inv_five : answerOf 0x000C0147#32 0x00500000#32 0 = some ⟨0x00000333#32, 0, 0⟩ := by decide +kernel
theorem test_inv_root : answerOf 0x001E01E7#32 0x2D413CCC#32 0 = some ⟨0x5A827420#32, 0, 0⟩ := by decide +kernel
theorem test_log_half : answerOf 0x00000008#32 0x02000000#32 0 = some ⟨0xFD3A37A9#32, 0, 0⟩ := by decide +kernel
theorem test_log_sentinel : answerOf 0x00000008#32 0xFFFFFFFF#32 0 = some ⟨0x88000000#32, 0, 0⟩ := by decide
theorem test_lin2db_half : answerOf 0x00000009#32 0x02000000#32 0 = some ⟨0xFF3F5741#32, 0, 0⟩ := by decide +kernel
theorem test_lin2db_sentinel : answerOf 0x00000009#32 0#32 0 = some ⟨0x83000000#32, 0, 0⟩ := by decide
theorem test_db2lin_call : callOf 0x0000000A#32 0xFE000000#32 0 = some ⟨.db2lin, 0xFE000000#32⟩ := by decide
/-- Section 2.11: `EXT_SEL` as the port drives it. -/
theorem test_extPort_sel :
    (nextOf (step (held 0x0000000A#32 0xFE000000#32 0))).map extPort = some (some (1#1, 0xFE000000#32)) ∧
    (nextOf (step (held 0x0000000B#32 0xF8000000#32 0))).map extPort = some (some (0#1, 0xF8000000#32)) := by decide
theorem test_db2lin_fields : answerOf 0x0000001A#32 0xFE000000#32 0 = some ⟨0, 0, 2⟩ := by decide
theorem test_kneeexp_call : callOf 0x0000000B#32 0x08000000#32 0 = some ⟨.exp, 0x08000000#32⟩ := by decide
theorem test_kneeexp_reserved : callOf 0x0040000B#32 5#32 0 = none := by decide
theorem test_pow_fits : callOf 0x0000000C#32 0x0C000000#32 0xE0000000#32 = some ⟨.exp, 0xFB9B0560#32⟩ := by decide +kernel
theorem test_pow_wraps : callOf 0x0000000C#32 1#32 0x80000000#32 = some ⟨.exp, 0x205966C4#32⟩ := by decide +kernel

/-- Section 2.13: `BAD_PARAM`, and the legal neighbour. -/
theorem test_badParam : answerOf 0x001528A0#32 3#32 2#32 = some ⟨0, 0, 3⟩ := by decide
theorem test_badParam_neighbour : answerOf 0x001428A0#32 3#32 2#32 = some ⟨6, 0, 0⟩ := by decide

/-- Program 7: the answer to KNEEEXP becomes the response. -/
theorem test_answer_is_response :
    step { held 0x0000000B#32 0x08000000#32 0 with
        phase := .waitExt, ext := some ⟨.exp, 0x08000000#32⟩, inputs := [.extAnswer] } =
      .next { held 0x0000000B#32 0x08000000#32 0 with phase := .resp, y := Config.extExp 0x08000000#32 } := rfl

/-- Program 7 with a reset instead of the answer, then the late answer. -/
theorem test_reset_while_waiting :
    (nextOf (step { held 11#32 5#32 0 with
        phase := .waitExt, ext := some ⟨.exp, 5#32⟩, inputs := [.reset, .strayAnswer 9#32] })) =
      some { State.reset with inputs := [.strayAnswer 9#32] } := by decide

theorem test_placed_from_reset :
    nextOf (step (State.reset.withFetchWord 32 0x00000008)) =
      some { State.reset with phase := .resp, cmd := 8, y := 0x88000000#32 } := by decide

/-! ## Witnesses: the hypotheses of each statement met together

Of a statement with several clauses, one witness a clause, at a boundary of its range. -/

/-- QMUL: every count at its bound, and a command word of each outcome: runs, `RSV`, too large a count, sum too small. -/
theorem witness_QmulAnswersRoundedProduct :
    ((31#6).toNat ≤ 31 ∧ (0#6).toNat ≤ (0#6).toNat + (0#6).toNat ∧ (31#6).toNat ≤ (31#6).toNat + (0#6).toNat) ∧
    (Executing (held 0x001F7DF0#32 1 1) ∧ opField 0x001F7DF0#32 = 0#4) ∧
    (Executing (held 0x00400000#32 1 1) ∧ opField 0x00400000#32 = 0#4 ∧ rsvField 0x00400000#32 ≠ 0) ∧
    (Executing (held 0x00000200#32 1 1) ∧ opField 0x00000200#32 = 0#4 ∧ 31 < (faField 0x00000200#32).toNat) ∧
    (Executing (held 0x00010000#32 1 1) ∧ opField 0x00010000#32 = 0#4 ∧
      (faField 0x00010000#32).toNat + (fbField 0x00010000#32).toNat < (fyField 0x00010000#32).toNat) := by decide

/-- QSHR: equal counts at both ends, and a command word of each outcome. -/
theorem witness_QshrAnswersRoundedShift :
    ((31#6).toNat ≤ 31 ∧ (31#6).toNat ≤ (31#6).toNat ∧ (0#6).toNat ≤ (0#6).toNat) ∧
    (Executing (held 0x00050051#32 1 1) ∧ opField 0x00050051#32 = 1#4) ∧
    (Executing (held 0x00060C51#32 1 1) ∧ opField 0x00060C51#32 = 1#4 ∧ fbField 0x00060C51#32 ≠ 0) ∧
    (Executing (held 0x00060051#32 1 1) ∧ opField 0x00060051#32 = 1#4 ∧
      (faField 0x00060051#32).toNat < (fyField 0x00060051#32).toNat) := by decide

/-- QSHL: the longest shift, and a command word of each outcome. -/
theorem witness_QshlAnswersWrappedShift :
    ((0#6).toNat ≤ (31#6).toNat ∧ (31#6).toNat ≤ 31) ∧
    (Executing (held 0x00050052#32 1 1) ∧ opField 0x00050052#32 = 2#4) ∧
    (Executing (held 0x00000C02#32 1 1) ∧ opField 0x00000C02#32 = 2#4 ∧ fbField 0x00000C02#32 ≠ 0) ∧
    (Executing (held 0x00050062#32 1 1) ∧ opField 0x00050062#32 = 2#4 ∧
      (fyField 0x00050062#32).toNat < (faField 0x00050062#32).toNat) := by decide

/-- REXP: the largest count, the three cases of the scan, and a command word of each outcome. -/
theorem witness_RexpAnswersMantissaAndExponent :
    (31#6).toNat ≤ 31 ∧ scan 0x7FFFFFFF#32 = 31 ∧ scan 0x3FFFFFFF#32 = 30 ∧ scan 0x80000000#32 = 0 ∧
    (Executing (held 0x000001F3#32 1 1) ∧ opField 0x000001F3#32 = 3#4) ∧
    (Executing (held 0x000101A3#32 1 1) ∧ opField 0x000101A3#32 = 3#4 ∧ fyField 0x000101A3#32 ≠ 0) ∧
    (Executing (held 0x00000213#32 1 1) ∧ opField 0x00000213#32 = 3#4 ∧ 31 < (faField 0x00000213#32).toNat) := by
  decide

/-- LOG10: zero, both sides of the fold, and a command word of each outcome. -/
theorem witness_Log10AnswersHornerChain :
    (Executing (held 4#32 0 0) ∧ opField 4#32 = 4#4 ∧ FieldsZero 4#32) ∧
    (Executing (held 0x14#32 0 0) ∧ opField 0x14#32 = 4#4 ∧ ¬ FieldsZero 0x14#32) ∧
    759250125 < (mantissa 0x02D413CD#32).toInt ∧ ¬ 759250125 < (mantissa 0x02D413CC#32).toInt := by decide

/-- SIN: a command word of each outcome. -/
theorem witness_SinAnswersOddPolynomial :
    (Executing (held 5#32 0 0) ∧ opField 5#32 = 5#4 ∧ FieldsZero 5#32) ∧
    (Executing (held 0x405#32 0 0) ∧ opField 0x405#32 = 5#4 ∧ ¬ FieldsZero 0x405#32) := by decide

/-- ASIN: both sides of both thresholds, and a command word of each outcome. -/
theorem witness_AsinAnswersBranchPolynomial :
    (Executing (held 6#32 0 0) ∧ opField 6#32 = 6#4 ∧ FieldsZero 6#32) ∧
    (Executing (held 0x10006#32 0 0) ∧ opField 0x10006#32 = 6#4 ∧ ¬ FieldsZero 0x10006#32) ∧
    (0x2D413CCD#32).toInt = 759250125 ∧ (0xD2BEC333#32).toInt = -759250125 := by decide

/-- INV: the largest counts, zero, both sides of the root test, the three final moves, and a command word of each
outcome. -/
theorem witness_InvAnswersReciprocalChain :
    (31#6).toNat ≤ 31 ∧
    (Executing (held 0x001A01A7#32 0 0) ∧ opField 0x001A01A7#32 = 7#4) ∧
    (Executing (held 0x00000407#32 0 0) ∧ opField 0x00000407#32 = 7#4 ∧ fbField 0x00000407#32 ≠ 0) ∧
    (Executing (held 0x003F01A7#32 0 0) ∧ opField 0x003F01A7#32 = 7#4 ∧ 31 < (fyField 0x003F01A7#32).toNat) ∧
    (mantissa 0x2D413CCC#32).toInt < 759250125 ∧ ¬ (mantissa 0x2D413CCD#32).toInt < 759250125 ∧
    (exponent 0x04000000#32 26 + 25 = 26 ∧ exponent 1#32 0 + 25 < (31 : Int) ∧ (0 : Int) < exponent 1#32 0 + 25) := by
  decide

/-- LOG: zero, the largest negative and the smallest positive operand, and a command word of each outcome. -/
theorem witness_LogAnswersSentinelOrScaledLog10 :
    (0#32).toInt ≤ 0 ∧ (0xFFFFFFFF#32).toInt ≤ 0 ∧ ¬ (1#32).toInt ≤ 0 ∧
    (Executing (held 8#32 0 0) ∧ opField 8#32 = 8#4 ∧ FieldsZero 8#32) ∧
    (Executing (held 0x00050008#32 0 0) ∧ opField 0x00050008#32 = 8#4 ∧ ¬ FieldsZero 0x00050008#32) := by decide

/-- The two inner hypotheses about LOG10 and LOG as statements use them: a next state there is. -/
theorem witness_LogAnswersSentinelOrScaledLog10_inner :
    exec .log10 (held 8#32 1 0) = .next (answered (held 8#32 1 0) (log10Value 1) 0) := rfl

/-- LIN2DB: both sides of the sign test, and a command word of each outcome. -/
theorem witness_Lin2dbAnswersSentinelOrDecibels :
    (0#32).toInt ≤ 0 ∧ 0 < (1#32).toInt ∧
    (Executing (held 9#32 0 0) ∧ opField 9#32 = 9#4 ∧ FieldsZero 9#32) ∧
    (Executing (held 0x19#32 0 0) ∧ opField 0x19#32 = 9#4 ∧ ¬ FieldsZero 0x19#32) := by decide

/-- DB2LIN: a command word of each outcome. -/
theorem witness_Db2linAsksAndRelaysAnswer :
    (Executing (held 10#32 0 0) ∧ opField 10#32 = 10#4 ∧ FieldsZero 10#32) ∧
    (Executing (held 0x1A#32 0 0) ∧ opField 0x1A#32 = 10#4 ∧ ¬ FieldsZero 0x1A#32) := by decide

/-- KNEEEXP: a command word of each outcome. -/
theorem witness_KneeexpAsksAndRelaysAnswer :
    (Executing (held 11#32 0 0) ∧ opField 11#32 = 11#4 ∧ FieldsZero 11#32) ∧
    (Executing (held 0x0040000B#32 0 0) ∧ opField 0x0040000B#32 = 11#4 ∧ ¬ FieldsZero 0x0040000B#32) := by decide

/-- POW: a command word of each outcome. -/
theorem witness_PowAsksWithScaledLog :
    (Executing (held 12#32 0 0) ∧ opField 12#32 = 12#4 ∧ FieldsZero 12#32) ∧
    (Executing (held 0x1C#32 0 0) ∧ opField 0x1C#32 = 12#4 ∧ ¬ FieldsZero 0x1C#32) := by decide

theorem witness_PowAsksWithScaledLog_inner :
    exec .log (held 12#32 0 0) = .next (answered (held 12#32 0 0) 0x88000000#32 0) := rfl

/-- A word that decodes, for `EncodeOfDecodeIsIdentity`. -/
theorem witness_EncodeOfDecodeIsIdentity : decode 0x003FFFF0#32 = .ok (.qmul 63 63 63) := by decide

/-- Each of the three errors, and none, for `FirstFailingCheckDecidesEveryWord`. -/
theorem witness_FirstFailingCheckDecidesEveryWord :
    firstFailingCheck 0x0000000D#32 = some .illegalOp ∧ firstFailingCheck 0x0040000D#32 = some .reservedField ∧
    firstFailingCheck 0x00000200#32 = some .badParam ∧ firstFailingCheck 0x001F7DF0#32 = none := by decide

/-- Each of the three errors, for `CommandErrorIsAnOrdinaryResponse`. -/
theorem witness_CommandErrorIsAnOrdinaryResponse :
    (Executing (held 0x0000000D#32 0 0) ∧ firstFailingCheck 0x0000000D#32 = some .illegalOp) ∧
    (Executing (held 0x00400000#32 0 0) ∧ firstFailingCheck 0x00400000#32 = some .reservedField) ∧
    (Executing (held 0x00010000#32 0 0) ∧ firstFailingCheck 0x00010000#32 = some .badParam) := by decide

/-- Each clause of `StatusReportsOnlyTheCommandWord`: a legal command, one of each error, an answered call. -/
theorem witness_StatusReportsOnlyTheCommandWord :
    (step (held 5 0 0) = .next (answered (held 5 0 0) 0 0) ∧ Executing (held 5 0 0)) ∧
    (step (held 15 0 0) = .next (errored (held 15 0 0) 1) ∧ Executing (held 15 0 0)) ∧
    (step (held 0x80000004 0 0) = .next (errored (held 0x80000004 0 0) 2) ∧ Executing (held 0x80000004 0 0)) ∧
    (step (held 0x00010000 0 0) = .next (errored (held 0x00010000 0 0) 3) ∧ Executing (held 0x00010000 0 0)) ∧
    (step { waiting (held 11 7 0) .exp 7 with inputs := [.extAnswer] } =
      .next (answered (held 11 7 0) (Config.extExp 7) 0) ∧
      (answered (held 11 7 0) (Config.extExp 7) 0).phase = .resp) :=
  ⟨⟨rfl, rfl, rfl⟩, ⟨rfl, rfl, rfl⟩, ⟨rfl, rfl, rfl⟩, ⟨rfl, rfl, rfl⟩, rfl, rfl⟩

theorem witness_IllegalParametersAnswerBadParam : (Instr.qmul 0 0 1).wellFormed = false := by decide

/-- One word that decodes and one that does not, for `StepRunsDecodedOperation`. -/
theorem witness_StepRunsDecodedOperation :
    (Executing (held 0x00000200#32 0 0) ∧ decode 0x00000200#32 = .ok (.qmul 32 0 0)) ∧
    (Executing (held 15#32 0 0) ∧ decode 15#32 = .error .illegalOp) := by decide

theorem witness_ExecutionReachesResponseOrCall :
    Executing (held 5#32 0 0) ∧ Executing { held 12#32 0 0 with inputs := [.take, .reset] } := by decide

/-- A step of each kind, for `PhaseMovesOnlyAsListed`: waiting, an ignored event, and the five transitions, one of them with an error. -/
theorem witness_PhaseMovesOnlyAsListed :
    (step State.reset = .next State.reset ∧ resetAsserted State.reset = false) ∧
    (step { State.reset with inputs := [.take] } = .next State.reset) ∧
    (step { State.reset with inputs := [.request ⟨5, 0, 0⟩] } = .next (held 5 0 0)) ∧
    (step (held 15 0 0) = .next (errored (held 15 0 0) 1)) ∧
    (step (held 11 7 0) = .next (waiting (held 11 7 0) .exp 7)) ∧
    (step { waiting (held 11 7 0) .exp 7 with inputs := [.extAnswer] } =
      .next (answered (held 11 7 0) (Config.extExp 7) 0)) ∧
    (step { errored (held 15 0 0) 1 with inputs := [.take] } =
      .next { errored (held 15 0 0) 1 with phase := .idle }) :=
  ⟨⟨rfl, rfl⟩, rfl, rfl, rfl, rfl, rfl, rfl⟩

/-- The phase of each clause of `RequestAcceptedOnlyInIdle`. -/
theorem witness_RequestAcceptedOnlyInIdle :
    State.reset.phase = .idle ∧ (waiting State.reset .exp 0).phase = .waitExt ∧
    (errored State.reset 1).phase = .resp ∧ (held 0 0 0).phase = .exec := by decide

/-- Each value of the conclusion, for `ExternalCallsComeFromThreeOperations`. -/
theorem witness_ExternalCallsComeFromThreeOperations :
    (Executing (held 10 0 0) ∧ (held 10 0 0).ext = none) ∧ (Executing (held 11 0 0) ∧ (held 11 0 0).ext = none) ∧
    (Executing (held 12 0 0) ∧ (held 12 0 0).ext = none) ∧ (Executing (held 13 0 0) ∧ (held 13 0 0).ext = none) := by
  decide

/-- Each clause of `ExponentIsZeroExceptForRexp`: an operation, an illegal REXP, and steps to an error and to a
collaborator's answer. -/
theorem witness_ExponentIsZeroExceptForRexp :
    (exec .sin (held 5 0 0) = .next (answered (held 5 0 0) 0 0) ∧ ∀ fa, Instr.sin = .rexp fa → 31 < fa.toNat) ∧
    (exec (.rexp 32) (held 0x203 7 0) = .next (errored (held 0x203 7 0) 3) ∧
      ∀ fa, Instr.rexp 32 = .rexp fa → 31 < fa.toNat) ∧
    (step (held 0x203 7 0) = .next (errored (held 0x203 7 0) 3) ∧
      ∀ fa, checkCommand 0x203#32 ≠ .ok (.rexp fa)) ∧
    (step { waiting (held 11 7 0) .exp 7 with inputs := [.extAnswer] } =
      .next (answered (held 11 7 0) (Config.extExp 7) 0)) :=
  ⟨⟨rfl, fun _ => Instr.noConfusion⟩, ⟨rfl, fun fa h => by cases h; decide⟩, ⟨rfl, fun _ => by
    rw [show checkCommand 0x203#32 = .error .badParam from by decide]
    exact nofun⟩, rfl⟩

theorem witness_OperandBIgnoredButByTwo :
    (∀ fa fb fy, Instr.db2lin ≠ .qmul fa fb fy) ∧ Instr.db2lin ≠ .pow :=
  ⟨fun _ _ _ => Instr.noConfusion, Instr.noConfusion⟩

/-- A phase of each clause of `ResponseReadOnlyWhileOffered`. -/
theorem witness_ResponseReadOnlyWhileOffered :
    (errored State.reset 1).phase = .resp ∧ (waiting State.reset .exp 0).phase ≠ .resp := by decide

theorem witness_ResponseStaysUntilTaken :
    let s := { errored State.reset 1 with inputs := [.request ⟨0, 0, 0⟩, .extAnswer, .strayAnswer 3] }
    s.phase = .resp ∧ ∀ ev ∈ s.inputs, ev ≠ .take ∧ ev ≠ .reset := by decide

theorem witness_UnansweredCallWaitsForEver :
    let s := { waiting State.reset .db2lin 0 with inputs := [.request ⟨0, 0, 0⟩, .take, .strayAnswer 3] }
    s.phase = .waitExt ∧ ∀ ev ∈ s.inputs, ev ≠ .extAnswer ∧ ev ≠ .reset := by decide

/-- The invariant in a state that waits and in one that offers a response, with the step from each. -/
theorem witness_EveryStepKeepsTheInvariant :
    (Inv (waiting (held 11 7 0) .exp 7) ∧
      step (waiting (held 11 7 0) .exp 7) = .next (waiting (held 11 7 0) .exp 7)) ∧
    (Inv (errored (held 15 0 0) 1) ∧ step (errored (held 15 0 0) 1) = .next (errored (held 15 0 0) 1)) ∧
    (Inv (held 5 0 0) ∧ step (held 5 0 0) = .next (answered (held 5 0 0) 0 0)) :=
  ⟨⟨⟨fun h => absurd rfl h, fun _ => ⟨.kneeexp, ⟨.exp, 7⟩, rfl, rfl, rfl⟩, Phase.noConfusion⟩, rfl⟩,
    ⟨⟨fun _ => rfl, Phase.noConfusion, fun _ => rfl⟩, rfl⟩,
    ⟨⟨fun _ => rfl, Phase.noConfusion, Phase.noConfusion⟩, rfl⟩⟩

theorem witness_TransactionDeliversThePureFunction :
    let s := { held 12 0 5 with phase := .idle, y := 99, e := 3, status := 2 }
    s.phase = .idle ∧ s.ext = none := by decide

/-- The hypotheses of the step clause, in two states whose registers differ. -/
theorem witness_HistoryIsInvisible_step :
    let s := { held 5 0 0 with y := 9, e := 1 }
    let t := held 5 0 0
    SameToOutside s t ∧ step s = .next (answered s 0 0) ∧ step t = .next (answered t 0 0) ∧ s ≠ t :=
  ⟨⟨rfl, rfl, rfl, fun _ => ⟨rfl, rfl, rfl⟩, rfl⟩, rfl, rfl, by decide⟩

theorem witness_HistoryIsInvisible :
    let s := { State.reset with cmd := 1, a := 2, b := 3, y := 4, e := 5, status := 1, inputs := [.take] }
    let t := { State.reset with inputs := [.take] }
    s.phase = .idle ∧ t.phase = .idle ∧ s.ext = none ∧ t.ext = none ∧ s.inputs = t.inputs ∧ s ≠ t := by decide

/-- Both directions of `WrapIsTheUniqueSignedResidue` at the edge of the range. -/
theorem witness_WrapIsTheUniqueSignedResidue :
    (wrap32 (2 ^ 31)).toInt = -(2 ^ 31) ∧ (2 ^ 31 : Int) = -(2 ^ 31) + 1 * 2 ^ 32 := by decide

theorem witness_RoundingShiftIsNearestHalfUp : 1 ≤ 1 ∧ rndShr 3 1 = 2 := by decide

/-- Both cases of `RoundingIsOddExceptOnHalves`. -/
theorem witness_RoundingIsOddExceptOnHalves :
    1 ≤ 2 ∧ (6 : Int) % 2 ^ 2 = 2 ^ (2 - 1) ∧ (5 : Int) % 2 ^ 2 ≠ 2 ^ (2 - 1) := by decide

/-- The largest product and the longest shift (section 2.1). -/
theorem witness_ProductFitsTheAccumulator : qmul 0x80000000#32 0x80000000#32 31 31 0 = 1 ∧ 1 ≤ 62 ∧ (0x80000000#32).toInt * (0x80000000#32).toInt = 2 ^ 62 := by
  decide

theorem witness_QshrIsQmulByOne : 31 ≤ 31 ∧ 0 ≤ 31 := by decide

/-- A left shift that fits at the edge of the range. -/
theorem witness_RescalesLoseOnlyWhatTheyMust :
    26 ≤ 30 ∧ -(2 ^ 31) ≤ (0xF8000000#32).toInt * 2 ^ (30 - 26) ∧ (0xF8000000#32).toInt * 2 ^ (30 - 26) < 2 ^ 31 := by
  decide

theorem witness_RequestEqualitiesHold :
    (31#6).toNat ≤ 31 ∧ (0#6).toNat ≤ (31#6).toNat ∧ (held 0 5 1).b = 1 := by decide

/-- Both ends of the scan's range. -/
theorem witness_ScanFindsTheHighestBitBelowTheSign :
    scan 0x7FFFFFFF#32 = 30 + 1 ∧ scan 1#32 = 0 + 1 ∧ scan 0x80000000#32 = 0 ∧ scan 0#32 = 0 := by decide

/-- Both ends of the range of `ReducerInvariantHolds`, the operand above it, and zero. -/
theorem witness_ReducerInvariantHolds :
    (31#6).toNat ≤ 31 ∧ 1 ≤ (1#32).toInt ∧ (0x7FFFFFFE#32).toInt ≤ 0x7FFFFFFE ∧ scan 0x3FFFFFFF#32 ≤ 30 ∧
    (held 3 0x7FFFFFFF#32 0).a = 0x7FFFFFFF#32 ∧ (held 3 0 0).a = 0 := by decide

theorem witness_MantissaAndExponentRebuildTheOperand :
    31 ≤ 31 ∧ 0 < (1#32).toInt ∧ scan 0x3FFFFFFF#32 ≤ 30 ∧ 0 < (0x3FFFFFFF#32).toInt ∧
    scan 0x40000000#32 = 31 ∧ 0 < (0x40000000#32).toInt := by decide

theorem witness_LargestOperandAloneReachesOne : 0 < (1#32).toInt ∧ 0 < (0x7FFFFFFF#32).toInt := by decide

theorem witness_ZeroOperandPolicies : (held 3 0 0).a = 0 ∧ (31#6).toNat ≤ 31 := by decide

theorem witness_SentinelsAreExact : (held 8 0 0).a.toInt ≤ 0 ∧ (held 8 0x80000000#32 0).a.toInt ≤ 0 := by decide

/-- An operand with an odd and one with an even half-step count. -/
theorem witness_Log10ReducesItsDomain :
    0 < (0x02D413CD#32).toInt ∧ (log10Reduce 0x02D413CD#32).2 % 2 = 1 ∧
    0 < (1#32).toInt ∧ (log10Reduce 1#32).2 = -50 ∧ (log10Reduce 0x7FFFFFFF#32).2 = 11 := by decide

theorem witness_InvReducesItsDomain :
    0 < (0x2D413CCC#32).toInt ∧ invTakesRoot 0x2D413CCC#32 = true ∧ mantissa 0x2D413CCD#32 = 759250125#32 ∧
    31 ≤ 31 := by decide

theorem witness_LongShiftsGiveZero : 32 ≤ 32 ∧ ((0 : Int) + 32 ≤ 32 ∨ (32 : Int) + 32 ≤ 0) ∧
    ((56 : Int) + 32 ≤ -5 ∨ (-5 : Int) + 32 ≤ 31) := by decide

/-- An operand whose last product is an exact half (0.5, the rows of section 2.6), and one whose is not. -/
theorem witness_SinIsOddExceptOnHalves :
    0x20000000#32 ≠ 0x80000000#32 ∧ (sinAcc 0x20000000#32).toInt * (0x20000000#32).toInt % 2 ^ 30 = 2 ^ 29 ∧
    (sinAcc 1#32).toInt * (1#32).toInt % 2 ^ 30 ≠ 2 ^ 29 := by decide

theorem witness_PowArgumentCornerCases : (0#32).toInt ≤ 0 ∧ (0xFFFFFFFB#32).toInt ≤ 0 := by decide

theorem witness_TableIsTheConvertedLiterals : 0 < 10 ∧
    (romSource .sentDb).1.Denotes (-1000) ∧ (romSource .twoOverPi).1.Denotes (2 / Real.pi) :=
  ⟨by decide, by norm_num [romSource, RomReal.Denotes], rfl⟩

end Sys2Proof.Tests
end

/-! The narrowing and the rounding shift of `00_scope.md`: what R13 and R14 say of `wrap32` and `rndShr`. -/

namespace Sys2Proof.Machine

/-- Adding a multiple of `2 ^ 32` does not change the narrowed word. -/
theorem wrap32_add_mul (v k : Int) : wrap32 (v + k * 2 ^ 32) = wrap32 v := by
  apply BitVec.eq_of_toInt_eq
  rw [wrap32_toInt, wrap32_toInt]
  exact Int.add_mul_bmod_self_right v k (2 ^ 32)

/-- Narrowing changes an integer by a multiple of `2 ^ 32`. -/
theorem exists_eq_wrap32_add_mul (v : Int) : ∃ k : Int, v = (wrap32 v).toInt + k * 2 ^ 32 :=
  ⟨v.bdiv (2 ^ 32), by rw [wrap32_toInt]; exact (Int.bmod_add_bdiv' v (2 ^ 32)).symm⟩

/-- Settles O40: `word_range` and `exists_eq_wrap32_add_mul` give the residue its two properties, and any other integer
with them narrows to the same word and survives the narrowing. -/
theorem wrapIsTheUniqueSignedResidue : Obligations.WrapIsTheUniqueSignedResidue := by
  intro v r
  constructor
  · rintro rfl
    obtain ⟨hlo, hhi⟩ := word_range (wrap32 v)
    exact ⟨hlo, Int.le_sub_one_of_lt hhi, exists_eq_wrap32_add_mul v⟩
  · rintro ⟨hlo, hhi, k, rfl⟩
    rw [wrap32_add_mul, wrap32_toInt_of_fits hlo (Int.lt_of_le_sub_one hhi)]

/-- The form of the rounding shift with two shifts and one increment: half of the last shift's `2 ^ (n + 1)` is the
`2 ^ n` that the increment stands for after the first shift. -/
theorem rndShr_succ_eq_two_shifts (v : Int) (n : Nat) : rndShr v (n + 1) = (v / 2 ^ n + 1) / 2 := by
  have hp : (0 : Int) < 2 ^ n := by positivity
  calc rndShr v (n + 1)
      = (v + 2 ^ n) / (2 ^ n * 2) := by rw [rndShr_succ, pow_succ]
    _ = (v + 2 ^ n) / 2 ^ n / 2 := (Int.ediv_ediv_of_nonneg hp.le).symm
    _ = (v / 2 ^ n + 1) / 2 := by rw [Int.add_ediv_of_dvd_right dvd_rfl, Int.ediv_self hp.ne']

/-- Settles O41: the bounds are `rndShr_succ_eq_iff`, the form with two shifts is `rndShr_succ_eq_two_shifts`, and the
model computes the eight examples. -/
theorem roundingShiftIsNearestHalfUp : Obligations.RoundingShiftIsNearestHalfUp := by
  refine ⟨rndShr_zero, ?bounds, ?shifts, by decide⟩
  case bounds =>
    rintro v q (_ | n) hs
    · contradiction
    · exact rndShr_succ_eq_iff v n q
  case shifts =>
    rintro v (_ | n) hs
    · contradiction
    · exact rndShr_succ_eq_two_shifts v n

end Sys2Proof.Machine

/-! The ordered checks of `30_encoding.md` R62: what the decoder reads, and what the list says of it. -/

namespace Sys2Proof.Machine

open Sys2Proof.Laws

/-- An operation without must-be-zero fields is always read. -/
theorem unlessReserved_nil (i : Instr) : unlessReserved [] i = .ok i := rfl

/-- What the decoder can do: checks 1 and 2 of R62, then check 3 for the operation of the word's row of R58; that
operation encodes to the word when its must-be-zero fields are zero. -/
theorem decode_cases (cmd : Word) :
    (rsvField cmd ≠ 0 ∧ decode cmd = .error .reservedField) ∨
      (rsvField cmd = 0 ∧ (opField cmd).toNat ∈ [13, 14, 15] ∧ decode cmd = .error .illegalOp) ∨
      ∃ i, rsvField cmd = 0 ∧ opField cmd = rowOp i ∧
        decode cmd = unlessReserved (rowMustBeZero cmd i) i ∧
        ((∀ f ∈ rowMustBeZero cmd i, f = 0) → encode i = cmd) := by
  by_cases hr : rsvField cmd = 0
  case neg => exact .inl ⟨hr, if_pos hr⟩
  right
  have hpack := packCommand_fields cmd
  have hdec : decode cmd = _ := if_neg (not_not_intro hr)
  simp only [← unlessReserved_nil] at hdec
  split at hdec
  case h_14 =>
    refine .inl ⟨hr, ?_, hdec⟩
    have hlt := (opField cmd).isLt
    interval_cases (opField cmd).toNat <;> simp_all
  -- Each `by` waits until `hdec` has named the operation.
  all_goals
    rename_i hop
    refine .inr ⟨_, hr, BitVec.eq_of_toNat_eq (by exact hop), hdec.trans (congrArg₂ unlessReserved (by rfl) rfl),
      fun hz => ?_⟩
    simp_all [rowMustBeZero, encode, BitVec.toNat_eq_nat]

/-- The operation a decoded word selects has the word as its encoding. -/
theorem encode_of_decode {cmd : Word} {i : Instr} (h : decode cmd = .ok i) : encode i = cmd := by
  obtain ⟨-, hd⟩ | ⟨-, -, hd⟩ | ⟨j, -, -, hd, henc⟩ := decode_cases cmd <;> rw [hd] at h
  · contradiction
  · contradiction
  · obtain ⟨hz, rfl⟩ := (unlessReserved_ok_iff _ _ _).mp h
    exact henc hz

/-- The `OP` of an operation is none of the three illegal ones. -/
theorem rowOp_notMem_illegal (i : Instr) : (rowOp i).toNat ∉ [13, 14, 15] := by
  cases i <;> simp [rowOp]

/-- Check 3 of the ordered list fails exactly when a must-be-zero field of the operation's row is not zero. -/
theorem mustBeZeroCheck_iff {cmd : Word} {i : Instr} (hop : opField cmd = rowOp i) :
    ((!usesFa (opField cmd).toNat && (faField cmd).toNat != 0) ||
      (!usesFb (opField cmd).toNat && (fbField cmd).toNat != 0) ||
      (!usesFy (opField cmd).toNat && (fyField cmd).toNat != 0)) = true ↔
      ¬∀ f ∈ rowMustBeZero cmd i, f = 0 := by
  cases i <;>
    simp [hop, rowOp, rowMustBeZero, usesFa, usesFb, usesFy, BitVec.toNat_eq_nat, imp_iff_not_or, or_assoc]

/-- The error of a word that the decoder rejects is that of the first check of the ordered list that fails. -/
theorem firstFailingCheck_of_decode_error {cmd : Word} {c : CmdError} (h : decode cmd = .error c) :
    firstFailingCheck cmd = some c := by
  obtain ⟨hr, hd⟩ | ⟨hr, hop, hd⟩ | ⟨i, hr, hop, hd, -⟩ := decode_cases cmd <;> rw [hd] at h
  · cases h
    exact if_pos fun h0 => hr (BitVec.eq_of_toNat_eq h0)
  · cases h
    rw [firstFailingCheck, hr, if_neg (by decide), if_pos hop]
  · obtain ⟨hz, rfl⟩ := (unlessReserved_error_iff _ _ _).mp h
    have hlegal : (opField cmd).toNat ∉ [13, 14, 15] := hop ▸ rowOp_notMem_illegal i
    rw [firstFailingCheck, hr, if_neg (by decide), if_neg hlegal, if_pos ((mustBeZeroCheck_iff hop).mpr hz)]

/-- An encoded operation passes checks 1 to 3 of the ordered list, and check 4 is its legality (R61). -/
theorem firstFailingCheck_encode (i : Instr) :
    firstFailingCheck (encode i) = if i.wellFormed then none else some .badParam := by
  cases i <;> simp [firstFailingCheck, encode, Instr.wellFormed, Count.legal, usesFa, usesFb, usesFy] <;> grind

/-- Settles O17: a word the decoder rejects fails the decoder's check first (`firstFailingCheck_of_decode_error`); any
other is the encoding of its operation (`encode_of_decode`), of which the list asks legality alone
(`firstFailingCheck_encode`). -/
theorem firstFailingCheckDecidesEveryWord : Obligations.FirstFailingCheckDecidesEveryWord := by
  intro cmd
  cases hd : decode cmd with
  | error c =>
    rw [firstFailingCheck_of_decode_error hd]
    simp [checkCommand, hd]
  | ok i =>
    obtain rfl := encode_of_decode hd
    rw [firstFailingCheck_encode]
    by_cases hw : i.wellFormed <;> simp [checkCommand, hd, hw]

end Sys2Proof.Machine

/-! The rescaler operations QMUL, QSHR, QSHL of `40_qarith.md`: what the operation and what the block answers. -/

namespace Sys2Proof.Machine

/-- `00_scope.md` R10 with the power taken in the integers. -/
theorem shl_eq_mul (v : Int) (n : Nat) : shl v n = v * 2 ^ n := by
  simp [shl]

/-! Parameter legality of R61, one operation a lemma. -/

theorem wellFormed_qmul_iff (fa fb fy : Count) :
    (Instr.qmul fa fb fy).wellFormed = true ↔
      fa.toNat ≤ 31 ∧ fb.toNat ≤ 31 ∧ fy.toNat ≤ 31 ∧ fy.toNat ≤ fa.toNat + fb.toNat := by
  simp [Instr.wellFormed, Count.legal, and_assoc]

theorem wellFormed_qshr_iff (fa fy : Count) :
    (Instr.qshr fa fy).wellFormed = true ↔ fa.toNat ≤ 31 ∧ fy.toNat ≤ 31 ∧ fy.toNat ≤ fa.toNat := by
  simp [Instr.wellFormed, Count.legal, and_assoc]

theorem wellFormed_qshl_iff (fa fy : Count) :
    (Instr.qshl fa fy).wellFormed = true ↔ fa.toNat ≤ 31 ∧ fy.toNat ≤ 31 ∧ fa.toNat ≤ fy.toNat := by
  simp [Instr.wellFormed, Count.legal, and_assoc]

/-! The operations as one answer behind the legality check. -/

theorem exec_qmul (fa fb fy : Count) (s : State) :
    exec (.qmul fa fb fy) s = whenLegal (.qmul fa fb fy)
      (answered s (wrap32 (rndShr (s.a.toInt * s.b.toInt) (fa.toNat + fb.toNat - fy.toNat))) 0) s := rfl

theorem exec_qshr (fa fy : Count) (s : State) :
    exec (.qshr fa fy) s = whenLegal (.qshr fa fy)
      (answered s (wrap32 (rndShr s.a.toInt (fa.toNat - fy.toNat))) 0) s := rfl

theorem exec_qshl (fa fy : Count) (s : State) :
    exec (.qshl fa fy) s = whenLegal (.qshl fa fy)
      (answered s (wrap32 (s.a.toInt * 2 ^ (fy.toNat - fa.toNat))) 0) s := by
  rw [← shl_eq_mul]
  rfl

/-- The step of a block that holds an operation with parameters: `RESERVED_FIELD` when the decoder does not read it,
`BAD_PARAM` when its parameters are illegal, else its answer `t` (`30_encoding.md` R62). -/
theorem step_withFields {s t : State} {i : Instr} {read reserved illegal : Prop}
    [Decidable read] [Decidable reserved] [Decidable illegal] (hx : Executing s)
    (hdec : decode s.cmd = if read then .ok i else .error .reservedField) (hexec : exec i s = whenLegal i t s)
    (hres : reserved ↔ ¬read) (hill : illegal ↔ ¬i.wellFormed = true) :
    step s = .next (if reserved then errored s 2 else if illegal then errored s 3 else t) := by
  rw [step_executing hx, runCommand, hdec]
  by_cases hread : read
  case neg =>
    rw [if_neg hread, if_pos (hres.mpr hread)]
    rfl
  rw [if_pos hread, if_neg (not_not_intro hread ∘ hres.mp)]
  by_cases hwf : i.wellFormed = true
  · rw [if_neg (not_not_intro hwf ∘ hill.mp)]
    exact hexec.trans (whenLegal_legal hwf t s)
  · rw [if_pos (hill.mpr hwf)]
    exact hexec.trans (whenLegal_illegal (Bool.eq_false_of_not_eq_true hwf) t s)

/-- Settles O1: `exec_qmul` behind the legality check for the operation, `step_withFields` for the block. -/
theorem qmulAnswersRoundedProduct : Obligations.QmulAnswersRoundedProduct := by
  intro s
  constructor
  · intro fa fb fy hfa hfb hfy hsum
    rw [exec_qmul, whenLegal_legal ((wellFormed_qmul_iff fa fb fy).mpr ⟨hfa, hfb, hfy, hsum⟩)]
  · intro hx hop
    refine step_withFields hx (decode_qmul _ hop) (exec_qmul _ _ _ s) Iff.rfl ?_
    rw [wellFormed_qmul_iff]
    omega

/-- Settles O2: `exec_qshr` behind the legality check for the operation, `step_withFields` for the block. -/
theorem qshrAnswersRoundedShift : Obligations.QshrAnswersRoundedShift := by
  intro s
  constructor
  · intro fa fy hfa hfy hle
    rw [exec_qshr, whenLegal_legal ((wellFormed_qshr_iff fa fy).mpr ⟨hfa, hfy, hle⟩)]
  · intro hx hop
    refine step_withFields hx (decode_qshr _ hop) (exec_qshr _ _ s) not_and_or.symm ?_
    rw [wellFormed_qshr_iff]
    omega

/-- Settles O3: `exec_qshl` behind the legality check for the operation, `step_withFields` for the block. -/
theorem qshlAnswersWrappedShift : Obligations.QshlAnswersWrappedShift := by
  intro s
  constructor
  · intro fa fy hfa hfy hle
    rw [exec_qshl, whenLegal_legal ((wellFormed_qshl_iff fa fy).mpr ⟨hfa, hfy, hle⟩)]
  · intro hx hop
    refine step_withFields hx (decode_qshl _ hop) (exec_qshl _ _ s) not_and_or.symm ?_
    rw [wellFormed_qshl_iff]
    omega

/-- Settles O44: a factor of one in a format without fractional bits changes neither the product nor the shift. -/
theorem qshrIsQmulByOne : Obligations.QshrIsQmulByOne := by
  intro x src dst _
  have hone : (1 : Word).toInt = 1 := by decide
  rw [qshr, qmul, hone, mul_one, Nat.add_zero]

end Sys2Proof.Machine

/-! The range reducer of `41_range_reducer.md`: the scan as a bit length, the mantissa by its three cases, the exponent in
its field, and the operation REXP. -/

namespace Sys2Proof.Machine

/-- The loop of the scan computes the bit length of the bits below its counter. -/
theorem scanFrom_eq_size (x : Word) (n : Nat) : scanFrom x n = Nat.size (x.toNat % 2 ^ n) := by
  induction n with
  | zero => simp [scanFrom, Nat.mod_one]
  | succ n ih =>
    have hmod : x.toNat % 2 ^ (n + 1) = x.toNat % 2 ^ n + 2 ^ n * (x.getLsbD n).toNat := by
      rw [Nat.mod_pow_succ, ← Nat.toNat_testBit]
      rfl
    rw [scanFrom, hmod]
    cases x.getLsbD n with
    | false => simpa using ih
    | true =>
      have hlt : x.toNat % 2 ^ n < 2 ^ n := Nat.mod_lt _ (by positivity)
      have hge : n < Nat.size (x.toNat % 2 ^ n + 2 ^ n) := Nat.lt_size.mpr (by omega)
      have hle : Nat.size (x.toNat % 2 ^ n + 2 ^ n) ≤ n + 1 := Nat.size_le.mpr (by omega)
      rw [if_pos rfl, Bool.toNat_true, mul_one]
      omega

/-- The scan is the bit length of `x[30:0]` (`41_range_reducer.md` R91). -/
theorem scan_eq_size (x : Word) : scan x = Nat.size (x.toNat % 2 ^ 31) := scanFrom_eq_size x 31

/-- Settles O47: the bit length is `scan_eq_size`, of which the zero cases are read off; the highest bit is
`scanFrom_eq_succ_iff`. -/
theorem scanFindsTheHighestBitBelowTheSign : Obligations.ScanFindsTheHighestBitBelowTheSign := by
  intro x
  refine ⟨scan_eq_size x, fun k => ?highest, ?zero⟩
  case highest =>
    simpa only [scan, Nat.lt_succ_iff] using scanFrom_eq_succ_iff x 31 k
  case zero =>
    rw [scan_eq_size, Nat.size_eq_zero]
    bv_omega

/-- The bits that a non-negative word uses below the sign are all of it. -/
theorem toNat_mod_of_nonneg {x : Word} (h : 0 ≤ x.toInt) : ((x.toNat % 2 ^ 31 : Nat) : Int) = x.toInt := by
  rw [BitVec.toInt_eq_toNat_cond] at h ⊢
  have := x.isLt
  split at h <;> omega

/-- A non-negative word is below the power of two that its scan names. -/
theorem toInt_lt_two_pow_scan {x : Word} (h : 0 ≤ x.toInt) : x.toInt < 2 ^ scan x := by
  rw [scan_eq_size, ← toNat_mod_of_nonneg h]
  exact_mod_cast Nat.lt_size_self _

/-- The scan of a positive word names no larger power of two than it must. -/
theorem two_pow_scan_le_two_mul_toInt {x : Word} (h : 0 < x.toInt) : 2 ^ scan x ≤ 2 * x.toInt := by
  have hv := toNat_mod_of_nonneg h.le
  obtain ⟨k, hk⟩ : ∃ k, scan x = k + 1 := Nat.exists_eq_add_one.mpr (by
    rw [scan_eq_size, Nat.size_pos]
    omega)
  have hle : 2 ^ k ≤ x.toNat % 2 ^ 31 := Nat.lt_size.mp (by
    rw [← scan_eq_size]
    omega)
  rw [hk, ← hv]
  norm_cast
  omega

/-- The three cases of the mantissa (`41_range_reducer.md` R92). -/
theorem mantissa_eq (x : Word) :
    mantissa x =
      if scan x = 31 then wrap32 (rndShr x.toInt 1)
      else if scan x = 30 then x
      else wrap32 (x.toInt * 2 ^ (30 - scan x)) := by
  have hle := scan_le x
  obtain h | h | h : scan x = 31 ∨ scan x = 30 ∨ scan x < 30 := by omega
  · simp [mantissa, qshr, h]
  · simp [mantissa, h]
  · rw [if_neg (by omega), if_neg (by omega), mantissa, if_neg (by omega), if_pos h, qshl, shl_eq_mul]

/-- The scan's power of two and the mantissa's factor make up 1.0 in Q2.30. -/
theorem two_pow_scan_mul {x : Word} (hs : scan x ≤ 30) : (2 : Int) ^ scan x * 2 ^ (30 - scan x) = 2 ^ 30 := by
  rw [← pow_add, Nat.add_sub_cancel' hs]

/-- A non-negative operand of at most 30 bits stays below 1.0 when it is moved up. -/
theorem toInt_mul_two_pow_lt {x : Word} (h : 0 ≤ x.toInt) (hs : scan x ≤ 30) :
    x.toInt * 2 ^ (30 - scan x) < 2 ^ 30 :=
  (mul_lt_mul_of_pos_right (toInt_lt_two_pow_scan h) (by positivity)).trans_eq (two_pow_scan_mul hs)

/-- A non-negative operand of at most 30 bits is moved up exactly. -/
theorem mantissa_toInt_of_scan_le {x : Word} (h : 0 ≤ x.toInt) (hs : scan x ≤ 30) :
    (mantissa x).toInt = x.toInt * 2 ^ (30 - scan x) := by
  have hlt := toInt_mul_two_pow_lt h hs
  have hnonneg : 0 ≤ x.toInt * 2 ^ (30 - scan x) := by positivity
  rw [mantissa_eq, if_neg (by omega)]
  split
  case isTrue h30 => simp [h30]
  case isFalse => exact wrap32_toInt_of_fits (by omega) (by omega)

/-- An operand that uses bit 30 is halved, a half rounded upward. -/
theorem mantissa_toInt_of_scan_eq {x : Word} (hs : scan x = 31) : (mantissa x).toInt = (x.toInt + 1) / 2 := by
  have hr : rndShr x.toInt 1 = (x.toInt + 1) / 2 := rndShr_succ x.toInt 0
  have := word_range x
  rw [mantissa_eq, if_pos hs, hr]
  exact wrap32_toInt_of_fits (by omega) (by omega)

/-- The mantissa of a positive operand is at least 0.5 (`41_range_reducer.md` R92). -/
theorem two_pow_le_mantissa {x : Word} (h : 0 < x.toInt) : 2 ^ 29 ≤ (mantissa x).toInt := by
  have hx := two_pow_scan_le_two_mul_toInt h
  obtain hs | hs : scan x ≤ 30 ∨ scan x = 31 := Nat.le_or_eq_of_le_succ (scan_le x)
  · have hm : 2 ^ 30 ≤ 2 * (mantissa x).toInt :=
      calc (2 : Int) ^ 30
          = 2 ^ scan x * 2 ^ (30 - scan x) := (two_pow_scan_mul hs).symm
        _ ≤ 2 * x.toInt * 2 ^ (30 - scan x) := by gcongr
        _ = 2 * (mantissa x).toInt := by rw [mantissa_toInt_of_scan_le h.le hs, mul_assoc]
    omega
  · rw [hs] at hx
    rw [mantissa_toInt_of_scan_eq hs]
    omega

/-- The mantissa of a non-negative operand but the largest is below 1.0 (`41_range_reducer.md` R92, R96). -/
theorem mantissa_lt_two_pow {x : Word} (h : 0 ≤ x.toInt) (hx : x.toInt < 2 ^ 31 - 1) :
    (mantissa x).toInt < 2 ^ 30 := by
  obtain hs | hs : scan x ≤ 30 ∨ scan x = 31 := Nat.le_or_eq_of_le_succ (scan_le x)
  · rw [mantissa_toInt_of_scan_le h hs]
    exact toInt_mul_two_pow_lt h hs
  · rw [mantissa_toInt_of_scan_eq hs]
    omega

/-- No bit of the exponent is lost in its field (`41_range_reducer.md` R93). -/
theorem expField_exponent_toInt (x : Word) {px : Nat} (h : px ≤ 31) :
    (expField (exponent x px)).toInt = (scan x : Int) - px := by
  have := scan_le x
  rw [expField, exponent]
  exact BitVec.toInt_ofInt_eq_self (by decide) (by omega) (by omega)

theorem wellFormed_rexp_iff (fa : Count) : (Instr.rexp fa).wellFormed = true ↔ fa.toNat ≤ 31 := by
  simp [Instr.wellFormed, Count.legal]

theorem exec_rexp (fa : Count) (s : State) :
    exec (.rexp fa) s =
      whenLegal (.rexp fa) (answered s (mantissa s.a) (expField (exponent s.a fa.toNat))) s := rfl

theorem exec_rexp_of_legal {fa : Count} (h : fa.toNat ≤ 31) (s : State) :
    exec (.rexp fa) s = .next (answered s (mantissa s.a) (expField (exponent s.a fa.toNat))) :=
  whenLegal_legal ((wellFormed_rexp_iff fa).mpr h) _ s

/-- Settles O48: the mantissa's bounds and its exact case for the positive operands, the model's own values for the
largest operand and for zero. -/
theorem reducerInvariantHolds : Obligations.ReducerInvariantHolds := by
  intro s fa hfa
  refine ⟨_, exec_rexp_of_legal hfa s, ?positive, ?largest, ?zero⟩
  case positive =>
    intro hlo hhi
    exact ⟨two_pow_le_mantissa hlo, Int.le_sub_one_of_lt (mantissa_lt_two_pow (by omega) (by omega)),
      expField_exponent_toInt s.a hfa, mantissa_toInt_of_scan_le (by omega)⟩
  case largest =>
    intro ha
    rw [answered_y, ha]
    decide
  case zero =>
    intro ha
    have hscan : scan 0 = 0 := by decide
    rw [answered_y, answered_e, expField_exponent_toInt s.a hfa, ha, hscan]
    exact ⟨by decide, by simp⟩

/-- Settles O4: the mantissa by its cases (`mantissa_eq`), `exec_rexp` behind the legality check for the operation,
`step_withFields` for the block. -/
theorem rexpAnswersMantissaAndExponent : Obligations.RexpAnswersMantissaAndExponent := by
  intro s
  simp only [← mantissa_eq]
  constructor
  · intro fa hfa
    exact exec_rexp_of_legal hfa s
  · intro hx hop
    refine step_withFields hx (decode_rexp _ hop) (exec_rexp _ s) (by tauto) ?_
    rw [wellFormed_rexp_iff, not_le]

end Sys2Proof.Machine

/-! The polynomial evaluator of `42_polynomial.md`: Horner's rule, and the operations LOG10, SIN, ASIN, INV with their
chains and thresholds written out. -/

namespace Sys2Proof.Machine

/-! Horner's rule of R101, from the highest coefficient down. -/

@[simp] theorem horner_nil (cn t : Word) (fc ft : Nat) : horner cn [] t fc ft = cn := rfl

@[simp] theorem horner_cons (cn c t : Word) (cs : List Word) (fc ft : Nat) :
    horner cn (c :: cs) t fc ft = horner (add32 (qmul cn t fc ft fc) c) cs t fc ft := rfl

/-- The lowest coefficient is added last. -/
theorem horner_concat (cn c t : Word) (cs : List Word) (fc ft : Nat) :
    horner cn (cs ++ [c]) t fc ft = add32 (qmul (horner cn cs t fc ft) t fc ft fc) c := by
  rw [horner, List.foldl_append]
  rfl

/-- Settles O51: no coefficient is `horner_nil`, one more is `horner_concat`. -/
theorem hornerIsOneStepPerCoefficient : Obligations.HornerIsOneStepPerCoefficient :=
  fun cn c t cs fc ft => ⟨horner_nil cn t fc ft, horner_concat cn c t cs fc ft⟩

/-! The operations without parameters. -/

/-- What an operation without parameters says twice: its own answer, and the block's answer to every command word with
its `OP`, `RESERVED_FIELD` unless every other field is zero (`30_encoding.md` R60, R62). -/
theorem exec_and_step_noFields {s t : State} {i : Instr} {op : BitVec 4} (hexec : exec i s = .next t)
    (hdec : opField s.cmd = op → decode s.cmd = if FieldsZero s.cmd then .ok i else .error .reservedField) :
    exec i s = .next t ∧
      (Executing s → opField s.cmd = op →
        step s = .next (if FieldsZero s.cmd then t else errored s 2)) := by
  refine ⟨hexec, fun hx hop => ?_⟩
  rw [step_executing hx, runCommand_noFields (hdec hop), hexec]
  exact (apply_ite Host.Outcome.next _ _ _).symm

theorem exec_log10 (s : State) : exec .log10 s = .next (answered s (log10Value s.a) 0) := rfl

theorem exec_sin (s : State) : exec .sin s = .next (answered s (sinValue s.a) 0) := rfl

theorem exec_asin (s : State) : exec .asin s = .next (answered s (asinValue s.a) 0) := rfl

/-- The threshold of LOG10, ASIN and INV, 1/sqrt 2 in Q2.30. -/
theorem rom_oneOverSqrt2_toInt : (rom .oneOverSqrt2).toInt = 759250125 := by decide

/-- The mantissa that LOG10's polynomial sees (`42_polynomial.md` R104). -/
theorem log10Reduce_fst (x : Word) :
    (log10Reduce x).1 =
      if 759250125 < (mantissa x).toInt then qmul (mantissa x) 0x2D413CCD#32 30 30 30 else mantissa x := by
  rw [log10Reduce, rom_oneOverSqrt2_toInt]
  split <;> rfl

/-- The doubled exponent of LOG10, with the half-step of the fold (`42_polynomial.md` R104). -/
theorem log10Reduce_snd (x : Word) :
    (log10Reduce x).2 = 2 * ((scan x : Int) - 26) + if 759250125 < (mantissa x).toInt then 1 else 0 := by
  rw [log10Reduce, rom_oneOverSqrt2_toInt]
  split
  · rfl
  · exact (add_zero _).symm

/-- Settles O5: the reduced operand is `log10Reduce_fst` and `log10Reduce_snd`, the chain is Horner's rule over the
constants of the table. -/
theorem log10AnswersHornerChain : Obligations.Log10AnswersHornerChain := by
  intro s m0 folds m exp2 c4 c3 c2 c1 c0 y
  have hy : log10Value s.a = y := by
    simp only [log10Value, log10Reduce_fst, log10Reduce_snd, horner_cons, horner_nil]
    rfl
  rw [← hy]
  exact exec_and_step_noFields (exec_log10 s) (decode_log10 s.cmd)

/-- Settles O6: the chain is Horner's rule over the constants of the table. -/
theorem sinAnswersOddPolynomial : Obligations.SinAnswersOddPolynomial := by
  intro s x2 c5 c3 c1 y
  have hy : sinValue s.a = y := by
    simp only [sinValue, sinAcc, horner_cons, horner_nil]
    rfl
  rw [← hy]
  exact exec_and_step_noFields (exec_sin s) (decode_sin s.cmd)

/-- The branch test of ASIN with its threshold written out (`42_polynomial.md` R115). -/
theorem asinIsLow_iff (x : Word) : asinIsLow x = true ↔ -759250125 ≤ x.toInt ∧ x.toInt ≤ 759250125 := by
  rw [asinIsLow, rom_oneOverSqrt2_toInt, decide_eq_true_iff]

/-- Settles O7: the branch is `asinIsLow_iff`, either chain is Horner's rule over the constants of the table. -/
theorem asinAnswersBranchPolynomial : Obligations.AsinAnswersBranchPolynomial := by
  intro s x2 l5 l3 l1 low xh x2h h5 h3 h1 high y
  have hlow : asinLow s.a = low := by
    simp only [asinLow, horner_cons, horner_nil]
    rfl
  have hhigh : asinHigh s.a = high := by
    simp only [asinHigh, horner_cons, horner_nil]
    rfl
  have hy : asinValue s.a = y := if_congr (asinIsLow_iff s.a) hlow hhigh
  rw [← hy]
  exact exec_and_step_noFields (exec_asin s) (decode_asin s.cmd)

/-! The operation INV. -/

/-- The root test of INV with its threshold written out (`42_polynomial.md` R120). -/
theorem invTakesRoot_iff (x : Word) : invTakesRoot x = true ↔ (mantissa x).toInt < 759250125 := by
  rw [invTakesRoot, rom_oneOverSqrt2_toInt, decide_eq_true_iff]

theorem wellFormed_inv_iff (fa fy : Count) : (Instr.inv fa fy).wellFormed = true ↔ fa.toNat ≤ 31 ∧ fy.toNat ≤ 31 := by
  simp [Instr.wellFormed, Count.legal]

theorem exec_inv (fa fy : Count) (s : State) :
    exec (.inv fa fy) s = whenLegal (.inv fa fy) (answered s (invValue s.a fa.toNat fy.toNat) 0) s := rfl

theorem exec_inv_of_legal {fa fy : Count} (hfa : fa.toNat ≤ 31) (hfy : fy.toNat ≤ 31) (s : State) :
    exec (.inv fa fy) s = .next (answered s (invValue s.a fa.toNat fy.toNat) 0) :=
  whenLegal_legal ((wellFormed_inv_iff fa fy).mpr ⟨hfa, hfy⟩) _ s

/-- Settles O8: the root test decides the factor before and after the chain (`invTakesRoot_iff`), which is Horner's rule
over the constants of the table; the legality check is `exec_inv_of_legal` for the operation, `step_withFields` for the
block. -/
theorem invAnswersReciprocalChain : Obligations.InvAnswersReciprocalChain := by
  intro s m0 sq m c4 c3 c2 c1 c0 acc y
  have hm : invReduce s.a = m := if_congr (invTakesRoot_iff s.a) rfl rfl
  have hacc : invAcc s.a = acc := by
    simp only [invAcc, hm, horner_cons, horner_nil]
    exact if_congr (invTakesRoot_iff s.a) rfl rfl
  have hy (fa fy : Nat) : invValue s.a fa fy = y fa fy := by
    simp only [invValue, invRescale, hacc, shl_eq_mul]
    rfl
  simp only [← hy]
  constructor
  · intro fa fy hfa hfy
    exact exec_inv_of_legal hfa hfy s
  · intro hx hop
    refine step_withFields hx (decode_inv _ hop) (exec_inv _ _ s) not_and_or.symm ?_
    rw [wellFormed_inv_iff]
    omega

end Sys2Proof.Machine

/-! The composition multiplexer of `43_composition.md`: the operations LOG and LIN2DB and their sentinels. -/

namespace Sys2Proof.Machine

theorem exec_log (s : State) : exec .log s = .next (answered s (logValue s.a) 0) := rfl

theorem exec_lin2db (s : State) : exec .lin2db s = .next (answered s (lin2dbValue s.a) 0) := rfl

/-- LOG's sentinel in the table is -30 in Q6.26 (`43_composition.md` R132). -/
theorem rom_sentLog : rom .sentLog = wrap32 (-30 * 2 ^ 26) := by decide

/-- LIN2DB's sentinel in the table is -1000 in Q11.21 (`43_composition.md` R134). -/
theorem rom_sentDb : rom .sentDb = wrap32 (-1000 * 2 ^ 21) := by decide

theorem logValue_of_nonpos {x : Word} (hx : x.toInt ≤ 0) : logValue x = rom .sentLog := if_pos hx

theorem lin2dbValue_of_nonpos {x : Word} (hx : x.toInt ≤ 0) : lin2dbValue x = rom .sentDb := if_pos hx

/-- Settles O53: either operation takes its sentinel branch (`logValue_of_nonpos`, `lin2dbValue_of_nonpos`), and the
table holds the sentinels converted (`rom_sentLog`, `rom_sentDb`). -/
theorem sentinelsAreExact : Obligations.SentinelsAreExact := by
  intro s ha
  refine ⟨?_, ?_, rom_sentLog, rom_sentDb⟩
  · rw [exec_log, logValue_of_nonpos ha, rom_sentLog]
  · rw [exec_lin2db, lin2dbValue_of_nonpos ha, rom_sentDb]

end Sys2Proof.Machine

/-! The encoding of `30_encoding.md`: decoding an encoded operation, and what the four checks of R62 say of a command
word. -/

namespace Sys2Proof.Machine

/-- The decoder reads an encoded operation back, from its row of R58 and its packed fields. -/
theorem decode_encode (i : Instr) : decode (encode i) = .ok i := by
  cases i with
  | qmul fa fb fy => simp [encode, decode_qmul]
  | qshr fa fy => simp [encode, decode_qshr]
  | qshl fa fy => simp [encode, decode_qshl]
  | rexp fa => simp [encode, decode_rexp]
  | log10 => simp [encode, decode_log10]
  | sin => simp [encode, decode_sin]
  | asin => simp [encode, decode_asin]
  | inv fa fy => simp [encode, decode_inv]
  | log => simp [encode, decode_log]
  | lin2db => simp [encode, decode_lin2db]
  | db2lin => simp [encode, decode_db2lin]
  | kneeexp => simp [encode, decode_kneeexp]
  | pow => simp [encode, decode_pow]

/-- Settles O15: `decode_encode`, one case for each row of R58. -/
theorem decodeOfEncodeIsIdentity : Obligations.DecodeOfEncodeIsIdentity := decode_encode

/-- Settles O16: `encode_of_decode`, the case split on what the decoder can do. -/
theorem encodeOfDecodeIsIdentity : Obligations.EncodeOfDecodeIsIdentity := fun _ _ => encode_of_decode

/-- Settles O14: the model decodes the eleven words. -/
theorem sampleCommandWordsDecode : Obligations.SampleCommandWordsDecode := by
  unfold Obligations.SampleCommandWordsDecode
  decide

/-- A command word passes all four checks exactly when it is the encoding of an operation with legal parameters. -/
theorem checkCommand_ok_iff (cmd : Word) (i : Instr) :
    checkCommand cmd = .ok i ↔ cmd = encode i ∧ i.wellFormed = true := by
  constructor
  · intro h
    cases hd : decode cmd with
    | error c => simp [checkCommand, hd] at h
    | ok j =>
      cases hw : j.wellFormed <;> simp [checkCommand, hd, hw] at h
      obtain rfl := h
      exact ⟨(encode_of_decode hd).symm, hw⟩
  · rintro ⟨rfl, hw⟩
    simp [checkCommand, decode_encode, hw]

/-- A command word fails a check in the decoder, or as an operation with illegal parameters. -/
theorem checkCommand_error_cases {cmd : Word} {c : CmdError} (h : checkCommand cmd = .error c) :
    decode cmd = .error c ∨ ∃ i, decode cmd = .ok i ∧ i.wellFormed = false ∧ c = .badParam := by
  cases hd : decode cmd with
  | error c' => exact .inl (by simpa [checkCommand, hd] using h)
  | ok i =>
    cases hw : i.wellFormed <;> simp [checkCommand, hd, hw] at h
    exact .inr ⟨i, rfl, hw, h.symm⟩

/-- The four checks and the ordered list of R62 name the same error. -/
theorem checkCommand_error_iff (cmd : Word) (c : CmdError) :
    checkCommand cmd = .error c ↔ firstFailingCheck cmd = some c := by
  have h := firstFailingCheckDecidesEveryWord cmd
  cases hf : firstFailingCheck cmd with
  | none =>
    obtain ⟨i, hi, -, -⟩ : ∃ i, checkCommand cmd = .ok i ∧ i.wellFormed = true ∧ encode i = cmd := by
      simpa only [hf] using h
    simp [hi]
  | some c' =>
    have hc : checkCommand cmd = .error c' := by simpa only [hf] using h
    simp [hc]

end Sys2Proof.Machine

/-! The pure function of one request: the external call a command makes (`43_composition.md` R143), and the response to
it (`70_reset_and_hazards.md` R172), against what EXEC does. -/

namespace Sys2Proof.Machine

/-- The external call that a request makes, none when its command word fails a check. -/
def commandCall (cmd x z : Word) : Option ExtRequest :=
  match checkCommand cmd with
  | .ok i => externalCall i x z
  | .error _ => none

theorem commandCall_eq_some_iff (cmd x z : Word) (c : ExtRequest) :
    commandCall cmd x z = some c ↔ ∃ i, checkCommand cmd = .ok i ∧ externalCall i x z = some c := by
  cases h : checkCommand cmd <;> simp [commandCall, h]

theorem commandCall_eq_none_iff (cmd x z : Word) :
    commandCall cmd x z = none ↔ ∀ i, checkCommand cmd = .ok i → externalCall i x z = none := by
  cases h : checkCommand cmd <;> simp [commandCall, h]

/-- An operation whose parameters are illegal raises `BAD_PARAM` and does nothing else. -/
theorem exec_illegal {i : Instr} (h : i.wellFormed = false) (s : State) :
    exec i s = .next (raiseCmdError .badParam s) := by
  cases i with
  | qmul fa fb fy => exact whenLegal_illegal h _ s
  | qshr fa fy => exact whenLegal_illegal h _ s
  | qshl fa fy => exact whenLegal_illegal h _ s
  | rexp fa => exact whenLegal_illegal h _ s
  | inv fa fy => exact whenLegal_illegal h _ s
  | _ => cases h

/-- Settles O20: `exec_illegal`, whose error response is the one named. -/
theorem illegalParametersAnswerBadParam : Obligations.IllegalParametersAnswerBadParam :=
  fun _ s h => exec_illegal h s

/-- A legal operation without an external call answers the pure function of its request. -/
theorem exec_eq_respond_execute {i : Instr} {s : State} (h : i.wellFormed = true)
    (hc : externalCall i s.a s.b = none) :
    exec i s = .next (respond (execute Config.extExp Config.extDb2lin (encode i) s.a s.b) s) := by
  have hcheck : checkCommand (encode i) = .ok i := (checkCommand_ok_iff _ i).mpr ⟨rfl, h⟩
  rw [execute, hcheck]
  cases i with
  | qmul fa fb fy => exact whenLegal_legal h _ s
  | qshr fa fy => exact whenLegal_legal h _ s
  | qshl fa fy => exact whenLegal_legal h _ s
  | rexp fa => exact whenLegal_legal h _ s
  | log10 => rfl
  | sin => rfl
  | asin => rfl
  | inv fa fy => exact whenLegal_legal h _ s
  | log => rfl
  | lin2db => rfl
  | db2lin => cases hc
  | kneeexp => cases hc
  | pow => cases hc

/-- An operation with an external call issues it. -/
theorem exec_eq_issueCall {i : Instr} {s : State} {c : ExtRequest} (hc : externalCall i s.a s.b = some c) :
    exec i s = .next (issueCall c.sel c.arg s) := by
  obtain ⟨hn, -⟩ | ⟨c', hc', he⟩ := exec_cases i s
  · simp [hc] at hn
  · obtain rfl : c = c' := Option.some.inj (hc.symm.trans hc')
    exact he

/-- The pure function of a request that makes a call is the collaborator's answer. -/
theorem execute_eq_extValue {cmd x z : Word} {c : ExtRequest} (h : commandCall cmd x z = some c) :
    execute Config.extExp Config.extDb2lin cmd x z = ⟨extValue c, 0, statusOk⟩ := by
  obtain ⟨i, hi, hc⟩ := (commandCall_eq_some_iff cmd x z c).mp h
  rw [execute, hi]
  cases i <;> cases hc <;> rfl

/-- EXEC raises the error of the first check that fails. -/
theorem runCommand_of_error {s : State} {c : CmdError} (h : checkCommand s.cmd = .error c) :
    runCommand s = .next (raiseCmdError c s) := by
  obtain hd | ⟨i, hd, hw, rfl⟩ := checkCommand_error_cases h
  · simp [runCommand, hd]
  · simpa [runCommand, hd] using exec_illegal hw s

/-- EXEC runs the operation of a command word that passes the checks. -/
theorem runCommand_of_ok {s : State} {i : Instr} (h : checkCommand s.cmd = .ok i) : runCommand s = exec i s := by
  obtain ⟨hcmd, -⟩ := (checkCommand_ok_iff s.cmd i).mp h
  rw [runCommand, hcmd, decode_encode]

/-- EXEC answers a request that makes no call by the pure function. -/
theorem runCommand_eq_respond {s : State} (h : commandCall s.cmd s.a s.b = none) :
    runCommand s = .next (respond (execute Config.extExp Config.extDb2lin s.cmd s.a s.b) s) := by
  cases hk : checkCommand s.cmd with
  | error c =>
    rw [runCommand_of_error hk, execute, hk]
    rfl
  | ok i =>
    obtain ⟨hcmd, hw⟩ := (checkCommand_ok_iff s.cmd i).mp hk
    rw [runCommand_of_ok hk, hcmd]
    exact exec_eq_respond_execute hw ((commandCall_eq_none_iff _ _ _).mp h i hk)

/-- EXEC issues the call of a request that makes one. -/
theorem runCommand_eq_issueCall {s : State} {c : ExtRequest} (h : commandCall s.cmd s.a s.b = some c) :
    runCommand s = .next (issueCall c.sel c.arg s) := by
  obtain ⟨i, hi, hc⟩ := (commandCall_eq_some_iff _ _ _ c).mp h
  rw [runCommand_of_ok hi, exec_eq_issueCall hc]

/-- The three command words that make an external call (`43_composition.md` R143), and the calls. -/
theorem commandCall_eq (cmd x z : Word) :
    commandCall cmd x z =
      if cmd = 10#32 then some ⟨.db2lin, x⟩
      else if cmd = 11#32 then some ⟨.exp, x⟩
      else if cmd = 12#32 then some ⟨.exp, powArg x z⟩
      else none := by
  have hcall (i : Instr) (hw : i.wellFormed = true) : commandCall (encode i) x z = externalCall i x z := by
    rw [commandCall, (checkCommand_ok_iff _ i).mpr ⟨rfl, hw⟩]
  split_ifs with h10 h11 h12
  · exact h10 ▸ hcall .db2lin rfl
  · exact h11 ▸ hcall .kneeexp rfl
  · exact h12 ▸ hcall .pow rfl
  · rw [commandCall_eq_none_iff]
    intro i hi
    obtain ⟨hcmd, -⟩ := (checkCommand_ok_iff cmd i).mp hi
    cases i with
    | db2lin => exact absurd hcmd h10
    | kneeexp => exact absurd hcmd h11
    | pow => exact absurd hcmd h12
    | _ => rfl

/-- The `STATUS` of the pure function is that of the command word (`30_encoding.md` R57, R62). -/
theorem execute_status (f g : Word → Word) (cmd x z : Word) :
    (execute f g cmd x z).status =
      match firstFailingCheck cmd with
      | none => 0#2
      | some .illegalOp => 1#2
      | some .reservedField => 2#2
      | some .badParam => 3#2 := by
  cases hf : firstFailingCheck cmd with
  | some c =>
    rw [execute, (checkCommand_error_iff cmd c).mpr hf]
    cases c <;> rfl
  | none =>
    cases hk : checkCommand cmd with
    | error c => simp [(checkCommand_error_iff cmd c).mp hk] at hf
    | ok i =>
      rw [execute, hk]
      cases i <;> rfl

/-- `E` is zero in the pure function of every request but a legal REXP (`30_encoding.md` R57). -/
theorem execute_e_of_ne_rexp (f g : Word → Word) {cmd : Word} (x z : Word)
    (h : ∀ fa, checkCommand cmd ≠ .ok (.rexp fa)) : (execute f g cmd x z).e = 0 := by
  cases hk : checkCommand cmd with
  | error c =>
    rw [execute, hk]
  | ok i =>
    rw [execute, hk]
    cases i with
    | rexp fa => exact absurd hk (h fa)
    | _ => rfl

end Sys2Proof.Machine

/-! The step as a relation: every move of the block with its cause and its whole next state (`10_state.md` R23;
`70_reset_and_hazards.md` R170). -/

namespace Sys2Proof.Machine

/-- The moves of the block. -/
inductive Move (s : State) : State → Prop where
  /-- An asserted reset. -/
  | reset {rest} (hi : s.inputs = .reset :: rest) : Move s (resetBlock { s with inputs := rest })
  /-- No event, or one that does not fit the phase. -/
  | wait (hp : s.phase ≠ .exec) : Move s { s with inputs := s.inputs.tail }
  /-- An accepted request. -/
  | accept {r rest} (hp : s.phase = .idle) (hi : s.inputs = .request r :: rest) :
    Move s { s with phase := .exec, cmd := r.cmd, a := r.a, b := r.b, inputs := rest }
  /-- The response of a request that makes no call. -/
  | respond (hx : Executing s) (hc : commandCall s.cmd s.a s.b = none) :
    Move s (respond (execute Config.extExp Config.extDb2lin s.cmd s.a s.b) s)
  /-- The call of a request that makes one. -/
  | call {c} (hx : Executing s) (hc : commandCall s.cmd s.a s.b = some c) : Move s (issueCall c.sel c.arg s)
  /-- The answer to the outstanding call. -/
  | answer {c rest} (hp : s.phase = .waitExt) (hc : s.ext = some c) (hi : s.inputs = .extAnswer :: rest) :
    Move s (complete (extValue c) 0 { s with ext := none, inputs := rest })
  /-- The taking of the response on offer. -/
  | take {rest} (hp : s.phase = .resp) (hi : s.inputs = .take :: rest) :
    Move s { s with phase := .idle, inputs := rest }

/-- Outside EXEC the oldest event happens. -/
theorem step_event {s : State} (hp : s.phase ≠ .exec) (ev : Event) (rest : List Event) :
    step { s with inputs := ev :: rest } = .next (deliver ev { s with inputs := rest }) :=
  step_ports (s := { s with inputs := ev :: rest }) hp

/-- A block with its own inputs to come. -/
theorem with_inputs_eq_self {s : State} {l : List Event} (h : s.inputs = l) : { s with inputs := l } = s := by
  rw [← h]

/-- What an event can do: it resets the block, or it fits the phase, or it has no effect (log 15). -/
theorem deliver_cases (ev : Event) (s : State) :
    (ev = .reset ∧ deliver ev s = resetBlock s) ∨
      (ev ≠ .reset ∧ deliver ev s = s) ∨
      (∃ r, ev = .request r ∧ s.phase = .idle ∧
        deliver ev s = { s with phase := .exec, cmd := r.cmd, a := r.a, b := r.b }) ∨
      (∃ c, ev = .extAnswer ∧ s.phase = .waitExt ∧ s.ext = some c ∧
        deliver ev s = complete (extValue c) 0 { s with ext := none }) ∨
      (ev = .take ∧ s.phase = .resp ∧ deliver ev s = { s with phase := .idle }) := by
  cases ev with
  | request r =>
    by_cases hp : s.phase = .idle
    · exact .inr (.inr (.inl ⟨r, rfl, hp, acceptRequest_idle hp r⟩))
    · exact .inr (.inl ⟨nofun, acceptRequest_busy hp r⟩)
  | extAnswer =>
    by_cases hp : s.phase = .waitExt
    · cases hc : s.ext with
      | none => exact .inr (.inl ⟨nofun, receiveAnswer_none hc⟩)
      | some c => exact .inr (.inr (.inr (.inl ⟨c, rfl, hp, rfl, receiveAnswer_waiting hp hc⟩)))
    · exact .inr (.inl ⟨nofun, receiveAnswer_elsewhere hp⟩)
  | strayAnswer v => exact .inr (.inl ⟨nofun, rfl⟩)
  | take =>
    by_cases hp : s.phase = .resp
    · exact .inr (.inr (.inr (.inr ⟨rfl, hp, takeResponse_offered hp⟩)))
    · exact .inr (.inl ⟨nofun, takeResponse_elsewhere hp⟩)
  | reset => exact .inl ⟨rfl, rfl⟩

/-- An event at the ports is one of the moves. -/
theorem move_deliver {s : State} {ev : Event} {rest : List Event} (hi : s.inputs = ev :: rest)
    (hp : s.phase ≠ .exec ∨ ev = .reset) : Move s (deliver ev { s with inputs := rest }) := by
  obtain ⟨rfl, hd⟩ | ⟨hev, hd⟩ | ⟨r, rfl, hidle, hd⟩ | ⟨c, rfl, hwait, hc, hd⟩ | ⟨rfl, hresp, hd⟩ :=
    deliver_cases ev { s with inputs := rest } <;> rw [hd]
  · exact .reset hi
  · simpa [hi] using Move.wait (hp.resolve_right hev)
  · exact .accept hidle hi
  · exact .answer hwait hc hi
  · exact .take hresp hi

/-- What running the held command answers is one of the moves. -/
theorem runCommand_move {s : State} (hx : Executing s) : ∃ t, runCommand s = .next t ∧ Move s t := by
  cases hc : commandCall s.cmd s.a s.b with
  | none => exact ⟨_, runCommand_eq_respond hc, .respond hx hc⟩
  | some c => exact ⟨_, runCommand_eq_issueCall hc, .call hx hc⟩

/-- Every step is one of the moves. -/
theorem step_move {s t : State} (h : step s = .next t) : Move s t := by
  obtain ⟨hi, hp, rfl⟩ | ⟨ev, rest, hi, hp, rfl⟩ | ⟨hx, hr⟩ := step_cases h
  · have hm := Move.wait hp
    rwa [with_inputs_eq_self (by simp [hi])] at hm
  · exact move_deliver hi hp
  · obtain ⟨u, hu, hm⟩ := runCommand_move hx
    obtain rfl := Host.Outcome.next.inj (hr.symm.trans hu)
    exact hm

/-- Settles O23: a held command answers by `runCommand_move`, and the ports always answer. -/
theorem everyStepAnswersANextState : Obligations.EveryStepAnswersANextState := by
  intro s
  by_cases hx : Executing s
  · obtain ⟨t, ht, -⟩ := runCommand_move hx
    exact ⟨t, (step_executing hx).trans ht⟩
  · by_cases hp : s.phase = .exec
    · exact ⟨_, step_reset (by simpa [Executing, hp] using hx)⟩
    · exact ⟨_, step_ports hp⟩

theorem not_resetAsserted_of_cons_reset {s : State} {rest : List Event} (hi : s.inputs = .reset :: rest) :
    resetAsserted s ≠ false := by
  simp [resetAsserted, hi]

/-- Settles O25: the moves without the reset (`step_move`). -/
theorem phaseMovesOnlyAsListed : Obligations.PhaseMovesOnlyAsListed := by
  intro s t h hr
  cases step_move h with
  | reset hi => exact absurd hr (not_resetAsserted_of_cons_reset hi)
  | wait hp => exact .inl ⟨hp, rfl⟩
  | accept hp hi => exact .inr (.inl ⟨hp, _, _, hi, rfl⟩)
  | respond hx hc => exact .inr (.inr (.inl ⟨hx.1, (commandCall_eq_none_iff _ _ _).mp hc, rfl⟩))
  | call hx hc =>
    obtain ⟨i, hi, hcall⟩ := (commandCall_eq_some_iff _ _ _ _).mp hc
    exact .inr (.inr (.inr (.inl ⟨hx.1, i, _, hi, hcall, rfl⟩)))
  | answer hp hc hi => exact .inr (.inr (.inr (.inr (.inl ⟨hp, _, _, hc, hi, rfl⟩))))
  | take hp hi => exact .inr (.inr (.inr (.inr (.inr ⟨hp, _, hi, rfl⟩))))

/-! The invariant. -/

/-- Settles O36: in IDLE the invariant asks only for a silent external port. -/
theorem invariantHoldsAfterReset : Obligations.InvariantHoldsAfterReset :=
  fun _ _ _ _ _ _ => ⟨fun _ => rfl, nofun, nofun⟩

/-- The invariant speaks of every field but the inputs to come. -/
theorem Inv.with_inputs {s : State} (h : Inv s) (l : List Event) : Inv { s with inputs := l } :=
  ⟨h.idlePort, h.ownCall, h.ownResponse⟩

/-- Settles O37: by the moves. A reset meets the invariant as the reset state does; a response is the pure function of
the held request by the definition of its move, or, for a relayed answer, because the outstanding call was the
request's own (`execute_eq_extValue`). -/
theorem everyStepKeepsTheInvariant : Obligations.EveryStepKeepsTheInvariant := by
  intro s t hs h
  cases step_move h with
  | reset hi => exact (invariantHoldsAfterReset 0 0 0 0 0 0).with_inputs _
  | wait hp => exact hs.with_inputs _
  | accept hp hi => exact ⟨fun _ => hs.idlePort (by simp [hp]), nofun, nofun⟩
  | respond hx hc => exact ⟨fun _ => hs.idlePort (by simp [hx.1]), nofun, fun _ => rfl⟩
  | call hx hc =>
    obtain ⟨i, hi, hcall⟩ := (commandCall_eq_some_iff _ _ _ _).mp hc
    exact ⟨fun hne => absurd rfl hne, fun _ => ⟨i, _, hi, hcall, rfl⟩, nofun⟩
  | @answer c rest hp hc hi =>
    obtain ⟨i, c', hi, hcall, hc'⟩ := hs.ownCall hp
    obtain rfl : c = c' := Option.some.inj (hc.symm.trans hc')
    exact ⟨fun _ => rfl, nofun,
      fun _ => (execute_eq_extValue ((commandCall_eq_some_iff _ _ _ _).mpr ⟨i, hi, hcall⟩)).symm⟩
  | take hp hi => exact ⟨fun _ => hs.idlePort (by simp [hp]), nofun, nofun⟩

end Sys2Proof.Machine

/-! What the outside can tell apart (`10_state.md` R20). -/

namespace Sys2Proof.Machine

/-- Indistinguishable blocks offer the same registers in RESP. -/
theorem SameToOutside.response_regs {s t : State} (h : SameToOutside s t) (hp : s.phase = .resp) :
    s.y = t.y ∧ s.e = t.e ∧ s.status = t.status := by
  have hr := h.response
  rw [readResponse_offered hp, readResponse_offered (h.phase ▸ hp)] at hr
  simpa using hr

/-- Indistinguishability without reading: where no response is offered there is none to compare. -/
theorem SameToOutside.of_regs {s t : State} (hp : s.phase = t.phase) (he : s.ext = t.ext) (hi : s.inputs = t.inputs)
    (hq : s.phase ≠ .idle → s.cmd = t.cmd ∧ s.a = t.a ∧ s.b = t.b)
    (hr : s.phase = .resp → s.y = t.y ∧ s.e = t.e ∧ s.status = t.status) : SameToOutside s t := by
  refine ⟨hp, he, hi, hq, ?_⟩
  by_cases h : s.phase = .resp
  · obtain ⟨hy, he', hst⟩ := hr h
    rw [readResponse_offered h, readResponse_offered (hp ▸ h), hy, he', hst]
  · rw [readResponse_elsewhere h, readResponse_elsewhere (hp ▸ h)]

/-- Indistinguishable blocks with the same inputs to come stay so. -/
theorem SameToOutside.with_inputs {s t : State} (h : SameToOutside s t) (l : List Event) :
    SameToOutside { s with inputs := l } { t with inputs := l } :=
  .of_regs h.phase h.ext rfl h.request h.response_regs

/-- An event does the same to indistinguishable blocks. -/
theorem SameToOutside.deliver {s t : State} (h : SameToOutside s t) (ev : Event) :
    SameToOutside (deliver ev s) (deliver ev t) := by
  cases ev with
  | request r =>
    change SameToOutside (acceptRequest r s) (acceptRequest r t)
    by_cases hp : s.phase = .idle
    · rw [acceptRequest_idle hp, acceptRequest_idle (h.phase ▸ hp)]
      exact .of_regs rfl h.ext h.inputs (fun _ => ⟨rfl, rfl, rfl⟩) nofun
    · rwa [acceptRequest_busy hp, acceptRequest_busy (h.phase ▸ hp)]
  | extAnswer =>
    change SameToOutside (receiveAnswer s) (receiveAnswer t)
    by_cases hp : s.phase = .waitExt
    · cases hc : s.ext with
      | none => rwa [receiveAnswer_none hc, receiveAnswer_none (h.ext ▸ hc)]
      | some c =>
        rw [receiveAnswer_waiting hp hc, receiveAnswer_waiting (h.phase ▸ hp) (h.ext ▸ hc)]
        exact .of_regs rfl rfl h.inputs (fun _ => h.request (by simp [hp])) (fun _ => ⟨rfl, rfl, rfl⟩)
    · rwa [receiveAnswer_elsewhere hp, receiveAnswer_elsewhere (h.phase ▸ hp)]
  | strayAnswer v => exact h
  | take =>
    change SameToOutside (takeResponse s) (takeResponse t)
    by_cases hp : s.phase = .resp
    · rw [takeResponse_offered hp, takeResponse_offered (h.phase ▸ hp)]
      exact .of_regs rfl h.ext h.inputs (fun hne => absurd rfl hne) nofun
    · rwa [takeResponse_elsewhere hp, takeResponse_elsewhere (h.phase ▸ hp)]
  | reset => exact .of_regs rfl rfl h.inputs (fun hne => absurd rfl hne) nofun

/-- The ports do the same to indistinguishable blocks. -/
theorem SameToOutside.takeInput {s t : State} (h : SameToOutside s t) :
    SameToOutside (takeInput s) (takeInput t) := by
  rw [Machine.takeInput, Machine.takeInput, ← h.inputs]
  cases s.inputs with
  | nil => exact h
  | cons ev rest => exact (h.with_inputs rest).deliver ev

/-- The held command does the same in indistinguishable blocks. -/
theorem SameToOutside.runCommand {s t : State} (h : SameToOutside s t) (hp : s.phase = .exec) :
    ∃ s' t', runCommand s = .next s' ∧ runCommand t = .next t' ∧ SameToOutside s' t' := by
  obtain ⟨hcmd, ha, hb⟩ := h.request (by simp [hp])
  cases hc : commandCall s.cmd s.a s.b with
  | none =>
    refine ⟨_, _, runCommand_eq_respond hc, runCommand_eq_respond (hcmd ▸ ha ▸ hb ▸ hc), ?_⟩
    rw [hcmd, ha, hb]
    exact .of_regs rfl h.ext h.inputs (fun _ => ⟨hcmd, ha, hb⟩) (fun _ => ⟨rfl, rfl, rfl⟩)
  | some c =>
    exact ⟨_, _, runCommand_eq_issueCall hc, runCommand_eq_issueCall (hcmd ▸ ha ▸ hb ▸ hc),
      .of_regs rfl rfl h.inputs (fun _ => ⟨hcmd, ha, hb⟩) nofun⟩

/-- A step keeps indistinguishable blocks indistinguishable. -/
theorem SameToOutside.step {s t : State} (h : SameToOutside s t) :
    ∃ s' t', step s = .next s' ∧ step t = .next t' ∧ SameToOutside s' t' := by
  have hreset : resetAsserted t = resetAsserted s := by rw [resetAsserted, resetAsserted, h.inputs]
  by_cases hp : s.phase = .exec
  · cases hr : resetAsserted s with
    | true => exact ⟨_, _, step_reset hr, step_reset (hreset.trans hr), h.takeInput⟩
    | false =>
      rw [step_executing ⟨hp, hr⟩, step_executing ⟨h.phase ▸ hp, hreset.trans hr⟩]
      exact h.runCommand hp
  · exact ⟨_, _, step_ports hp, step_ports (h.phase ▸ hp), h.takeInput⟩

/-- One more step of a run. -/
theorem run_succ {s t : State} (h : step s = .next t) (n : Nat) :
    Host.Core.run Sys2Proof.core (n + 1) s = Host.Core.run Sys2Proof.core n t := by
  have hstep : Sys2Proof.core.step s = .next t := h
  simp only [Host.Core.run, hstep]

/-- A run keeps indistinguishable blocks indistinguishable. -/
theorem SameToOutside.run (n : Nat) {s t : State} (h : SameToOutside s t) :
    ∃ s' t' : State, Host.Core.run Sys2Proof.core n s = .next s' ∧
      Host.Core.run Sys2Proof.core n t = .next t' ∧ SameToOutside s' t' := by
  induction n generalizing s t with
  | zero => exact ⟨s, t, rfl, rfl, h⟩
  | succ n ih =>
    obtain ⟨u, v, hu, hv, huv⟩ := h.step
    rw [run_succ hu, run_succ hv]
    exact ih huv

/-- Settles O39: the step lemma `SameToOutside.step`, and its iteration `SameToOutside.run` from two idle blocks, of
which the outside sees nothing. -/
theorem historyIsInvisible : Obligations.HistoryIsInvisible := by
  constructor
  · intro s t s' t' h hs ht
    obtain ⟨u, v, hu, hv, huv⟩ := h.step
    obtain rfl := Host.Outcome.next.inj (hs.symm.trans hu)
    obtain rfl := Host.Outcome.next.inj (ht.symm.trans hv)
    exact huv
  · intro n s t hs ht hse hte hi
    have h : SameToOutside s t :=
      .of_regs (hs.trans ht.symm) (hse.trans hte.symm) hi (fun hne => absurd hs hne) (by simp [hs])
    exact ⟨h, h.run n⟩

end Sys2Proof.Machine

/-! One event at the ports, phase by phase. -/

namespace Sys2Proof.Machine

/-- A request presented in IDLE. -/
theorem step_request_of_idle {s : State} (hp : s.phase = .idle) (r : Request) (rest : List Event) :
    step { s with inputs := .request r :: rest } =
      .next { s with phase := .exec, cmd := r.cmd, a := r.a, b := r.b, inputs := rest } := by
  rw [step_event (by simp [hp])]
  exact congrArg Host.Outcome.next (acceptRequest_idle (s := { s with inputs := rest }) hp r)

/-- A request presented to a block that waits for an answer or a taking. -/
theorem step_request_of_busy {s : State} (hp : s.phase = .waitExt ∨ s.phase = .resp) (r : Request)
    (rest : List Event) : step { s with inputs := .request r :: rest } = .next { s with inputs := rest } := by
  have hidle : s.phase ≠ .idle := by rcases hp with h | h <;> simp [h]
  rw [step_event (by rcases hp with h | h <;> simp [h])]
  exact congrArg Host.Outcome.next (acceptRequest_busy (s := { s with inputs := rest }) hidle r)

/-- The answer that an outstanding call awaits. -/
theorem step_answer_of_waitExt {s : State} {c : ExtRequest} (hp : s.phase = .waitExt) (hc : s.ext = some c)
    (rest : List Event) :
    step { s with inputs := .extAnswer :: rest } =
      .next (complete (extValue c) 0 { s with ext := none, inputs := rest }) := by
  rw [step_event (by simp [hp])]
  exact congrArg Host.Outcome.next (receiveAnswer_waiting (s := { s with inputs := rest }) hp hc)

/-- An answer while a response is on offer. -/
theorem step_answer_of_resp {s : State} (hp : s.phase = .resp) (rest : List Event) :
    step { s with inputs := .extAnswer :: rest } = .next { s with inputs := rest } := by
  rw [step_event (by simp [hp])]
  exact congrArg Host.Outcome.next (receiveAnswer_elsewhere (s := { s with inputs := rest }) (by simp [hp]))

/-- The taking of a response on offer. -/
theorem step_take_of_resp {s : State} (hp : s.phase = .resp) (rest : List Event) :
    step { s with inputs := .take :: rest } = .next { s with phase := .idle, inputs := rest } := by
  rw [step_event (by simp [hp])]
  exact congrArg Host.Outcome.next (takeResponse_offered (s := { s with inputs := rest }) hp)

end Sys2Proof.Machine

/-! EXEC: what one step does with the held command (`30_encoding.md` R57 to R63; `60_exceptions.md` R151). -/

namespace Sys2Proof.Machine

/-- Settles O21: in EXEC the step is `runCommand` (`step_executing`), which follows the decoder. -/
theorem stepRunsDecodedOperation : Obligations.StepRunsDecodedOperation := by
  intro s hx
  rw [step_executing hx, runCommand]
  exact ⟨fun i hi => by rw [hi], fun c hc => by rw [hc]⟩

/-- A whole command word is placed as it is. -/
theorem withFetchWord_toNat (s : State) (w : Word) : s.withFetchWord 32 w.toNat = holdCommand w s := by
  rw [State.withFetchWord, Nat.mod_eq_of_lt w.isLt, BitVec.ofNat_toNat, BitVec.setWidth_eq]

/-- A block that has just accepted a request runs it next: the reset events at the head are dropped. -/
theorem executing_holdCommand (w : Word) (s : State) : Executing (holdCommand w s) := by
  refine ⟨rfl, ?_⟩
  have h := List.head?_dropWhile_not (fun ev => ev == Event.reset) s.inputs
  rw [resetAsserted, holdCommand_inputs]
  cases hd : (s.inputs.dropWhile (fun ev => ev == Event.reset)).head? with
  | none => rfl
  | some ev => simpa [hd] using h

/-- Settles O22: the placed word is held (`withFetchWord_toNat`), so the next step decodes it (`decode_encode`). -/
theorem placedCommandRunsNext : Obligations.PlacedCommandRunsNext := by
  intro s i
  rw [withFetchWord_toNat]
  have hx := executing_holdCommand (encode i) s
  exact ⟨hx, rfl, rfl, (stepRunsDecodedOperation _ hx).1 i (decode_encode i)⟩

/-- Settles O18: the error of the first failing check is raised (`runCommand_of_error`); the taking moves `PHASE`
alone (`step_take_of_resp`). -/
theorem commandErrorIsAnOrdinaryResponse : Obligations.CommandErrorIsAnOrdinaryResponse := by
  intro s c hx hf
  constructor
  · rw [step_executing hx, runCommand_of_error ((checkCommand_error_iff _ c).mpr hf)]
    cases c <;> rfl
  · exact fun code rest => step_take_of_resp (s := errored s code) rfl rest

/-- Settles O19: by the moves that end in RESP. From EXEC it is the response of the pure function (`execute_status`),
from WAIT_EXT a collaborator's answer. -/
theorem statusReportsOnlyTheCommandWord : Obligations.StatusReportsOnlyTheCommandWord := by
  intro s t h ht
  cases step_move h with
  | reset hi => cases ht
  | wait hp => exact ⟨fun hx => absurd hx.1 hp, fun hw => absurd (hw.symm.trans ht) nofun⟩
  | accept hp hi => cases ht
  | respond hx hc => exact ⟨fun _ => execute_status _ _ _ _ _, fun hw => absurd (hx.1.symm.trans hw) nofun⟩
  | call hx hc => cases ht
  | answer hp hc hi => exact ⟨fun hx => absurd (hx.1.symm.trans hp) nofun, fun _ => ⟨rfl, rfl⟩⟩
  | take hp hi => cases ht

/-- Settles O24: EXEC answers the response or issues the call (`runCommand_eq_respond`, `runCommand_eq_issueCall`). -/
theorem executionReachesResponseOrCall : Obligations.ExecutionReachesResponseOrCall := by
  intro s hx
  rw [step_executing hx]
  cases hc : commandCall s.cmd s.a s.b with
  | none => exact ⟨_, runCommand_eq_respond hc, rfl, .inl ⟨rfl, rfl⟩⟩
  | some c => exact ⟨_, runCommand_eq_issueCall hc, rfl, .inr ⟨rfl, rfl⟩⟩

/-- Settles O27: the two things an operation can do (`exec_cases`). -/
theorem operationsKeepTheRequest : Obligations.OperationsKeepTheRequest := by
  intro i s
  obtain ⟨hc, r, he⟩ | ⟨c, hc, he⟩ := exec_cases i s
  · exact ⟨_, he, rfl, rfl, rfl, rfl, by simp [hc]⟩
  · exact ⟨_, he, rfl, rfl, rfl, rfl, by simp [hc]⟩

/-- Settles O28: after the step the outstanding call is that of the request, and `commandCall_eq` lists the requests
that make one. -/
theorem externalCallsComeFromThreeOperations : Obligations.ExternalCallsComeFromThreeOperations := by
  intro s hx hidle
  obtain ⟨t, ht, hext⟩ : ∃ t, step s = .next t ∧ t.ext = commandCall s.cmd s.a s.b := by
    rw [step_executing hx]
    cases hc : commandCall s.cmd s.a s.b with
    | none => exact ⟨_, runCommand_eq_respond hc, hidle⟩
    | some c => exact ⟨_, runCommand_eq_issueCall hc, rfl⟩
  rw [commandCall_eq] at hext
  refine ⟨t, ht, hext, ?_⟩
  rw [extPort, hext]
  split_ifs <;> rfl

/-- Settles O29: an error response has `E = 0`, a legal operation answers the pure function (`execute_e_of_ne_rexp`);
the step's responses are the moves that end in RESP. -/
theorem exponentIsZeroExceptForRexp : Obligations.ExponentIsZeroExceptForRexp := by
  intro s t ht
  constructor
  · intro i he hrexp
    cases hw : i.wellFormed with
    | false =>
      obtain rfl := Host.Outcome.next.inj (he.symm.trans (exec_illegal hw s))
      rfl
    | true =>
      cases hc : externalCall i s.a s.b with
      | none =>
        obtain rfl := Host.Outcome.next.inj (he.symm.trans (exec_eq_respond_execute hw hc))
        refine execute_e_of_ne_rexp _ _ _ _ fun fa hfa => ?_
        obtain rfl : i = .rexp fa := by simpa [(checkCommand_ok_iff _ i).mpr ⟨rfl, hw⟩] using hfa
        exact absurd (hrexp fa rfl) (Nat.not_lt.mpr ((wellFormed_rexp_iff fa).mp hw))
      | some c =>
        obtain rfl := Host.Outcome.next.inj (he.symm.trans (exec_eq_issueCall hc))
        cases ht
  · intro hresp h hrexp
    cases step_move h with
    | reset hi => cases ht
    | wait hp => exact absurd ht hresp
    | accept hp hi => cases ht
    | respond hx hc => exact execute_e_of_ne_rexp _ _ _ _ (hrexp hx.1)
    | call hx hc => cases ht
    | answer hp hc hi => rfl
    | take hp hi => cases ht

/-- Operand B stands untouched beside an answer behind the legality check. -/
theorem nextOf_whenLegal_with_b (i : Instr) (y : Word) (e : ExpByte) (s : State) (v : Word) :
    nextOf (whenLegal i (complete y e { s with b := v }) { s with b := v }) =
      (nextOf (whenLegal i (complete y e s) s)).map (fun t => { t with b := v }) := by
  cases h : i.wellFormed with
  | false =>
    rw [whenLegal_illegal h, whenLegal_illegal h]
    rfl
  | true =>
    rw [whenLegal_legal h, whenLegal_legal h]
    rfl

/-- Settles O30: behind a legality check by `nextOf_whenLegal_with_b`; the other operations write their answer or call
beside operand B. -/
theorem operandBIgnoredButByTwo : Obligations.OperandBIgnoredButByTwo := by
  intro i s v hqmul hpow
  cases i with
  | qmul fa fb fy => exact absurd rfl (hqmul fa fb fy)
  | qshr fa fy => exact nextOf_whenLegal_with_b _ _ _ s v
  | qshl fa fy => exact nextOf_whenLegal_with_b _ _ _ s v
  | rexp fa => exact nextOf_whenLegal_with_b _ _ _ s v
  | inv fa fy => exact nextOf_whenLegal_with_b _ _ _ s v
  | pow => exact absurd rfl hpow
  | _ => rfl

end Sys2Proof.Machine

/-! The handshake and the reset (`10_state.md` R23, R33, R34; `70_reset_and_hazards.md` R170 to R175). -/

namespace Sys2Proof.Machine

/-- Settles O26: a request is loaded in IDLE (`step_request_of_idle`) and consumed in WAIT_EXT and RESP
(`step_request_of_busy`); EXEC answers or issues a call and keeps the request it holds. -/
theorem requestAcceptedOnlyInIdle : Obligations.RequestAcceptedOnlyInIdle := by
  intro s r rest u
  refine ⟨fun hp => step_request_of_idle hp r rest, fun hp => step_request_of_busy hp r rest, fun hp => ?exec⟩
  have hx : Executing u := ⟨hp, rfl⟩
  rw [step_executing hx]
  cases hc : commandCall u.cmd u.a u.b with
  | none => exact ⟨_, runCommand_eq_respond hc, rfl, rfl, rfl⟩
  | some c => exact ⟨_, runCommand_eq_issueCall hc, rfl, rfl, rfl⟩

/-- Settles O31: `readResponse_offered` and `readResponse_elsewhere`. -/
theorem responseReadOnlyWhileOffered : Obligations.ResponseReadOnlyWhileOffered :=
  fun _ => ⟨readResponse_offered, readResponse_elsewhere⟩

/-- A block outside EXEC that ignores every event to come waits for ever, and only the events are consumed. -/
theorem run_of_ignores (n : Nat) {s : State} (hp : s.phase ≠ .exec)
    (hev : ∀ ev ∈ s.inputs, ∀ l, deliver ev { s with inputs := l } = { s with inputs := l }) :
    Host.Core.run Sys2Proof.core n s = .next { s with inputs := s.inputs.drop n } := by
  induction n generalizing s with
  | zero => rfl
  | succ n ih =>
    have hstep : step s = .next { s with inputs := s.inputs.tail } := by
      rw [step_ports hp, takeInput]
      cases hi : s.inputs with
      | nil => rw [List.tail_nil, with_inputs_eq_self hi]
      | cons ev rest => exact congrArg Host.Outcome.next (hev ev (by simp [hi]) rest)
    have htail := ih (s := { s with inputs := s.inputs.tail }) hp fun ev hmem => hev ev (List.mem_of_mem_tail hmem)
    rw [run_succ hstep, htail, List.drop_tail]

/-- In RESP nothing but a taking and a reset has an effect. -/
theorem deliver_of_resp {s : State} {ev : Event} (hp : s.phase = .resp) (htake : ev ≠ .take)
    (hreset : ev ≠ .reset) : deliver ev s = s := by
  cases ev with
  | request r => exact acceptRequest_busy (by simp [hp]) r
  | extAnswer => exact receiveAnswer_elsewhere (by simp [hp])
  | strayAnswer v => rfl
  | take => exact absurd rfl htake
  | reset => exact absurd rfl hreset

/-- In WAIT_EXT nothing but an answer and a reset has an effect. -/
theorem deliver_of_waitExt {s : State} {ev : Event} (hp : s.phase = .waitExt) (hanswer : ev ≠ .extAnswer)
    (hreset : ev ≠ .reset) : deliver ev s = s := by
  cases ev with
  | request r => exact acceptRequest_busy (by simp [hp]) r
  | extAnswer => exact absurd rfl hanswer
  | strayAnswer v => rfl
  | take => exact takeResponse_elsewhere (by simp [hp])
  | reset => exact absurd rfl hreset

/-- Settles O32: in RESP the events to come are all ignored (`deliver_of_resp`), so the block waits
(`run_of_ignores`). -/
theorem responseStaysUntilTaken : Obligations.ResponseStaysUntilTaken := by
  intro n s hp hev
  have hrun := run_of_ignores n (by simp [hp]) fun ev hmem l =>
    deliver_of_resp (s := { s with inputs := l }) hp (hev ev hmem).1 (hev ev hmem).2
  exact ⟨_, hrun, readResponse_offered hp, rfl⟩

/-- Settles O33: in WAIT_EXT the events to come are all ignored (`deliver_of_waitExt`), so the block waits
(`run_of_ignores`). -/
theorem unansweredCallWaitsForEver : Obligations.UnansweredCallWaitsForEver := by
  intro n s hp hev
  have hrun := run_of_ignores n (by simp [hp]) fun ev hmem l =>
    deliver_of_waitExt (s := { s with inputs := l }) hp (hev ev hmem).1 (hev ev hmem).2
  exact ⟨_, hrun, hp, by simp [requestReady, hp], readResponse_elsewhere (by simp [hp]), rfl⟩

/-- Settles O34: the reset state awaits no answer, so a late one, of either kind, is consumed. -/
theorem resetAbandonsFromAnyPhase : Obligations.ResetAbandonsFromAnyPhase := by
  intro s rest
  refine ⟨resetBlock { s with inputs := rest }, step_reset rfl, rfl, rfl, rfl, rfl, rfl, ?_⟩
  rintro v more ev (rfl | rfl) <;> exact step_event (s := resetBlock { s with inputs := rest }) nofun _ more

/-- Settles O35: the reset state by its fields. -/
theorem resetStateIsIdle : Obligations.ResetStateIsIdle := ⟨rfl, rfl, rfl, rfl⟩

/-- EXEC and an answer event: a request without a call is answered and the event ignored; a request with one is answered
by the event, and the answer is the pure function (`execute_eq_extValue`). -/
theorem run_two_of_exec {s : State} (hp : s.phase = .exec) (he : s.ext = none) (rest : List Event) :
    ∃ t : State, Host.Core.run Sys2Proof.core 2 { s with inputs := .extAnswer :: rest } = .next t ∧
      t.phase = .resp ∧ t.ext = none ∧ t.inputs = rest ∧
      readResponse t = .ok (execute Config.extExp Config.extDb2lin s.cmd s.a s.b) := by
  have hx : Executing { s with inputs := .extAnswer :: rest } := ⟨hp, rfl⟩
  cases hc : commandCall s.cmd s.a s.b with
  | none =>
    rw [run_succ ((step_executing hx).trans (runCommand_eq_respond hc))]
    exact ⟨_, run_succ (step_answer_of_resp (s := respond _ s) rfl rest) 0, rfl, he, rfl, rfl⟩
  | some c =>
    rw [run_succ ((step_executing hx).trans (runCommand_eq_issueCall hc)), execute_eq_extValue hc]
    exact ⟨_, run_succ (step_answer_of_waitExt (s := issueCall c.sel c.arg s) rfl rfl rest) 0, rfl, rfl, rfl, rfl⟩

/-- Settles O38: the request is accepted (`step_request_of_idle`), EXEC and the answer event make the response
(`run_two_of_exec`), and the response is taken (`step_take_of_resp`). -/
theorem transactionDeliversThePureFunction : Obligations.TransactionDeliversThePureFunction := by
  intro s r rest hp he
  rw [run_succ (step_request_of_idle hp r _)]
  obtain ⟨t, hrun, hresp, hext, hinputs, hread⟩ :=
    run_two_of_exec (s := { s with phase := .exec, cmd := r.cmd, a := r.a, b := r.b }) rfl he (.take :: rest)
  have htake := step_take_of_resp hresp rest
  rw [with_inputs_eq_self hinputs] at htake
  exact ⟨t, _, hrun, hread, htake, rfl, hext, rfl⟩

end Sys2Proof.Machine

/-! The rounding shift and the rescaler of `40_qarith.md`: negation, range, exactness, the 64-bit datapath. -/

namespace Sys2Proof.Machine

/-- The operand is an exact half of the shift's unit when the half added reaches the next multiple. -/
theorem emod_eq_half_iff (v : Int) (n : Nat) :
    v % 2 ^ (n + 1) = 2 ^ n ↔ rndShr v (n + 1) * 2 ^ (n + 1) = v + 2 ^ n := by
  have hhalf : (2 : Int) ^ n % 2 ^ (n + 1) = 2 ^ n :=
    Int.emod_eq_of_lt (by positivity) (pow_lt_pow_right₀ (by norm_num) (Nat.lt_succ_self n))
  have hadd : v + 2 ^ n = v - 2 ^ n + 2 ^ (n + 1) := by ring
  calc v % 2 ^ (n + 1) = 2 ^ n
      ↔ v % 2 ^ (n + 1) = 2 ^ n % 2 ^ (n + 1) := by rw [hhalf]
    _ ↔ 2 ^ (n + 1) ∣ v - 2 ^ n := by rw [Int.emod_eq_emod_iff_emod_sub_eq_zero, Int.dvd_iff_emod_eq_zero]
    _ ↔ 2 ^ (n + 1) ∣ v + 2 ^ n := by rw [hadd, dvd_add_self_right]
    _ ↔ rndShr v (n + 1) * 2 ^ (n + 1) = v + 2 ^ n := by
        rw [rndShr_succ]
        exact ⟨Int.ediv_mul_cancel, Dvd.intro_left _⟩

/-- Negation commutes with the rounding shift but on an exact half (`40_qarith.md` R80). -/
theorem rndShr_neg (v : Int) (n : Nat) :
    rndShr (-v) (n + 1) = if v % 2 ^ (n + 1) = 2 ^ n then -rndShr v (n + 1) + 1 else -rndShr v (n + 1) := by
  have hp : (0 : Int) < 2 ^ n := by positivity
  have hpow : (2 : Int) ^ (n + 1) = 2 * 2 ^ n := pow_succ' 2 n
  obtain ⟨hlo, hhi⟩ := (rndShr_succ_eq_iff v n _).mp rfl
  split
  case isTrue h =>
    have hhalf := (emod_eq_half_iff v n).mp h
    exact (rndShr_succ_eq_iff _ n _).mpr ⟨by linarith, by linarith⟩
  case isFalse h =>
    have hne := mt (emod_eq_half_iff v n).mpr h
    have hlt := lt_of_le_of_ne hlo hne
    exact (rndShr_succ_eq_iff _ n _).mpr ⟨by linarith, by linarith⟩

/-- Settles O42: `rndShr_neg`, the shift being at least one. -/
theorem roundingIsOddExceptOnHalves : Obligations.RoundingIsOddExceptOnHalves := by
  rintro v (_ | n) hs
  · contradiction
  · exact rndShr_neg v n

/-- A rounding shift moves towards zero. -/
theorem rndShr_between (v : Int) (n : Nat) : min v 0 ≤ rndShr v n ∧ rndShr v n ≤ max v 0 := by
  cases n with
  | zero => simp
  | succ n =>
    have hp : (0 : Int) < 2 ^ n := by positivity
    have hpow : (2 : Int) ^ (n + 1) = 2 * 2 ^ n := pow_succ' 2 n
    obtain ⟨hlo, hhi⟩ := (rndShr_succ_eq_iff v n _).mp rfl
    rw [hpow] at hlo hhi
    constructor
    · by_contra hlt
      obtain ⟨h1, h2⟩ := lt_min_iff.mp (not_le.mp hlt)
      nlinarith
    · by_contra hgt
      obtain ⟨h1, h2⟩ := max_lt_iff.mp (not_le.mp hgt)
      nlinarith

/-- The narrowing of a rounding right shift changes nothing (`40_qarith.md` R82). -/
theorem qshr_toInt (x : Word) (src dst : Nat) : (qshr x src dst).toInt = rndShr x.toInt (src - dst) := by
  obtain ⟨hx1, hx2⟩ := word_range x
  obtain ⟨h1, h2⟩ := rndShr_between x.toInt (src - dst)
  exact wrap32_toInt_of_fits (by omega) (by omega)

/-- A rounding shift undoes an exact shift. -/
theorem rndShr_mul_two_pow (v : Int) (n : Nat) : rndShr (v * 2 ^ n) n = v := by
  cases n with
  | zero => simp
  | succ n =>
    have hp : (0 : Int) < 2 ^ n := by positivity
    have hpow : (2 : Int) ^ (n + 1) = 2 * 2 ^ n := pow_succ' 2 n
    exact (rndShr_succ_eq_iff _ n v).mpr ⟨by linarith, by linarith⟩

theorem qshl_eq (x : Word) (src dst : Nat) : qshl x src dst = wrap32 (x.toInt * 2 ^ (dst - src)) := by
  rw [qshl, shl_eq_mul]

/-- Settles O45: `qshr_toInt` for the right shift; a left shift that fits is exact, and then `rndShr_mul_two_pow`
undoes it. -/
theorem rescalesLoseOnlyWhatTheyMust : Obligations.RescalesLoseOnlyWhatTheyMust := by
  intro x hi lo _
  refine ⟨qshr_toInt x hi lo, fun h1 h2 => ?_, by rw [qshl_eq, qshr_toInt]⟩
  have hexact : (qshl x lo hi).toInt = x.toInt * 2 ^ (hi - lo) := by
    rw [qshl_eq, wrap32_toInt_of_fits h1 h2]
  refine ⟨hexact, BitVec.eq_of_toInt_eq ?_⟩
  rw [qshr_toInt, hexact, rndShr_mul_two_pow]

/-- A 64-bit word narrows as the integer it stands for. -/
theorem setWidth_eq_wrap32 (p : BitVec 64) : p.setWidth 32 = wrap32 p.toInt := by
  apply BitVec.eq_of_toNat_eq
  rw [wrap32, BitVec.toNat_setWidth, BitVec.toNat_ofInt, BitVec.toInt_eq_toNat_cond]
  have := p.isLt
  split <;> omega

/-- The product of two words in 64 bits is exact (`10_state.md` R28). -/
theorem signExtend_mul_toInt (x z : Word) : (x.signExtend 64 * z.signExtend 64).toInt = x.toInt * z.toInt := by
  obtain ⟨h1, h2⟩ := mul_range x z
  rw [BitVec.toInt_mul, BitVec.toInt_signExtend_of_le (by decide), BitVec.toInt_signExtend_of_le (by decide)]
  exact Int.bmod_eq_of_le (by omega) (by omega)

/-- The product shifted right, and one more, stays in 64 bits (`40_qarith.md` R79). -/
theorem mul_ediv_add_one_range (x z : Word) (n : Nat) :
    -(2 ^ 63) ≤ x.toInt * z.toInt / 2 ^ n + 1 ∧ x.toInt * z.toInt / 2 ^ n + 1 < 2 ^ 63 := by
  obtain ⟨h1, h2⟩ := mul_range x z
  have hp : (1 : Int) ≤ 2 ^ n := one_le_pow₀ (by norm_num)
  have hlo : -(2 ^ 62) ≤ x.toInt * z.toInt / 2 ^ n := (Int.le_ediv_iff_mul_le (by positivity)).mpr (by nlinarith)
  have hhi : x.toInt * z.toInt / 2 ^ n < 2 ^ 62 + 1 := (Int.ediv_lt_iff_lt_mul (by positivity)).mpr (by nlinarith)
  omega

/-- The rounding datapath in 64 bits: two arithmetic shifts and one increment (`00_scope.md` R14). -/
theorem sshiftRight_add_one_toInt (x z : Word) (n : Nat) :
    (((x.signExtend 64 * z.signExtend 64).sshiftRight n + 1#64).sshiftRight 1).toInt =
      rndShr (x.toInt * z.toInt) (n + 1) := by
  obtain ⟨h1, h2⟩ := mul_ediv_add_one_range x z n
  have hsum : ((x.signExtend 64 * z.signExtend 64).sshiftRight n + 1#64).toInt = x.toInt * z.toInt / 2 ^ n + 1 := by
    rw [BitVec.toInt_add, BitVec.toInt_sshiftRight, signExtend_mul_toInt, Int.shiftRight_eq_div_pow]
    exact Int.bmod_eq_of_le (by simpa using h1) (by simpa using h2)
  rw [BitVec.toInt_sshiftRight, hsum, Int.shiftRight_eq_div_pow, rndShr_succ_eq_two_shifts]
  rfl

/-- Settles O43: without a shift the datapath is the exact product (`signExtend_mul_toInt`), with one it is
`sshiftRight_add_one_toInt`; the ranges are `mul_range` and `mul_ediv_add_one_range`. -/
theorem productFitsTheAccumulator : Obligations.ProductFitsTheAccumulator := by
  intro x z
  obtain ⟨h1, h2⟩ := mul_range x z
  refine ⟨?datapath, h1, h2,
    BitVec.toInt_ofInt_eq_self (by decide) (by omega) (by omega), fun s _ => mul_ediv_add_one_range x z (s - 1)⟩
  intro fa fb fy p s
  rw [setWidth_eq_wrap32]
  change wrap32 (rndShr (x.toInt * z.toInt) s) = _
  cases s with
  | zero => rw [if_pos rfl, signExtend_mul_toInt, rndShr_zero]
  | succ n => rw [if_neg (Nat.succ_ne_zero n), Nat.add_sub_cancel, sshiftRight_add_one_toInt]

/-- Settles O46: QSHR and QMUL by one round the same integer behind the same checks; equal counts shift by nothing; the
mantissa does not depend on the count. -/
theorem requestEqualitiesHold : Obligations.RequestEqualitiesHold := by
  intro s fa fy f p p'
  refine ⟨fun hfa hle hb => ?qmul, fun hf => ?same, fun hp hp' => ?rexp⟩
  case qmul =>
    have hone : (1 : Word).toInt = 1 := by decide
    rw [exec_qshr, exec_qmul, whenLegal_legal ((wellFormed_qshr_iff fa fy).mpr ⟨hfa, by omega, hle⟩),
      whenLegal_legal ((wellFormed_qmul_iff fa 0 fy).mpr ⟨hfa, by decide, by omega, by omega⟩), hb, hone, mul_one]
    rfl
  case same =>
    rw [exec_qshl, exec_qshr, whenLegal_legal ((wellFormed_qshl_iff f f).mpr ⟨hf, hf, le_rfl⟩),
      whenLegal_legal ((wellFormed_qshr_iff f f).mpr ⟨hf, hf, le_rfl⟩)]
    simp
  case rexp =>
    rw [exec_rexp_of_legal hp, exec_rexp_of_legal hp']
    rfl

/-- A count of 32 or more leaves a 32-bit raw below half a unit. -/
theorem rndShr_toInt_of_le (x : Word) {n : Nat} (hn : 32 ≤ n) : rndShr x.toInt n = 0 := by
  obtain ⟨m, rfl⟩ := Nat.exists_eq_add_of_le' hn
  obtain ⟨h1, h2⟩ := word_range x
  have hp : (1 : Int) ≤ 2 ^ m := one_le_pow₀ (by norm_num)
  have hpow : (2 : Int) ^ (m + 31) = 2 ^ m * 2 ^ 31 := pow_add 2 m 31
  have hpow' : (2 : Int) ^ (m + 31 + 1) = 2 ^ m * 2 ^ 32 := pow_add 2 m 32
  exact (rndShr_succ_eq_iff _ (m + 31) 0).mpr ⟨by omega, by omega⟩

/-- A left shift by 32 or more is a multiple of `2 ^ 32`. -/
theorem wrap32_shl_of_le (v : Int) {n : Nat} (hn : 32 ≤ n) : wrap32 (shl v n) = 0 := by
  obtain ⟨m, rfl⟩ := Nat.exists_eq_add_of_le' hn
  have hz := wrap32_add_mul 0 (v * 2 ^ m)
  rwa [zero_add, mul_assoc, ← pow_add, ← shl_eq_mul] at hz

/-- Settles O56: the two shifts are `rndShr_toInt_of_le` and `wrap32_shl_of_le`, and INV's final move makes one of
them. -/
theorem longShiftsGiveZero : Obligations.LongShiftsGiveZero := by
  intro acc n hn
  refine ⟨rndShr_toInt_of_le acc hn, wrap32_shl_of_le _ hn, fun pinv fy hcount => ?_⟩
  rw [invRescale]
  obtain h | h := hcount
  · rw [if_pos (by omega), rndShr_toInt_of_le acc (by omega)]
    rfl
  · rw [if_neg (by omega), if_pos (by omega)]
    exact wrap32_shl_of_le _ (by omega)

end Sys2Proof.Machine

/-! The reduced domains of `41_range_reducer.md` and `42_polynomial.md`. -/

namespace Sys2Proof.Machine

/-- The scan of a positive word finds a bit. -/
theorem scan_pos {x : Word} (h : 0 < x.toInt) : 1 ≤ scan x := by
  by_contra hs
  have hlt := toInt_lt_two_pow_scan h.le
  rw [Nat.lt_one_iff.mp (not_le.mp hs)] at hlt
  omega

/-- The largest word is the only one with its value. -/
theorem eq_largest_iff (x : Word) : x = 0x7FFFFFFF#32 ↔ x.toInt = 2 ^ 31 - 1 := by
  have hlargest : (0x7FFFFFFF#32).toInt = 2 ^ 31 - 1 := by decide
  rw [← BitVec.toInt_inj, hlargest]

/-- The mantissa of the largest word is 1.0. -/
theorem mantissa_largest : (mantissa 0x7FFFFFFF#32).toInt = 2 ^ 30 := by decide

/-- Settles O50: `two_pow_le_mantissa` below, `mantissa_lt_two_pow` above for all but the largest operand. -/
theorem largestOperandAloneReachesOne : Obligations.LargestOperandAloneReachesOne := by
  intro x hx
  refine ⟨two_pow_le_mantissa hx, ?_⟩
  by_cases hmax : x = 0x7FFFFFFF#32
  · rw [hmax, mantissa_largest]
    simp
  · have hlt := mantissa_lt_two_pow hx.le
      (lt_of_le_of_ne (Int.le_sub_one_of_lt (word_range x).2) (mt (eq_largest_iff x).mpr hmax))
    exact ⟨hlt.le, iff_of_false hlt.ne hmax⟩

/-- Settles O49: the exponent's field by `expField_exponent_toInt`, the two cases of the mantissa by
`mantissa_toInt_of_scan_le` and `mantissa_toInt_of_scan_eq`. -/
theorem mantissaAndExponentRebuildTheOperand : Obligations.MantissaAndExponentRebuildTheOperand := by
  intro x px hpx
  have hscan := scan_le x
  refine ⟨expField_exponent_toInt x hpx, by rw [exponent]; omega, by rw [exponent]; omega, fun hx hs => ?_,
    fun hx hs => ?_⟩
  · rw [mantissa_toInt_of_scan_le hx.le hs, mul_assoc, mul_comm (2 ^ (30 - scan x)), two_pow_scan_mul hs]
  · rw [mantissa_toInt_of_scan_eq hs]
    omega

/-- Bounds of an operand carry over to its product with a non-negative constant in Q2.30, where they fit a word. -/
theorem qmul_toInt_bounds {m c : Word} {lo hi : Int} (hc : 0 ≤ c.toInt) (hlo : lo ≤ m.toInt) (hhi : m.toInt ≤ hi)
    (hfits : -(2 ^ 31) ≤ rndShr (lo * c.toInt) 30 ∧ rndShr (hi * c.toInt) 30 < 2 ^ 31) :
    rndShr (lo * c.toInt) 30 ≤ (qmul m c 30 30 30).toInt ∧
      (qmul m c 30 30 30).toInt ≤ rndShr (hi * c.toInt) 30 := by
  have h1 : rndShr (lo * c.toInt) 30 ≤ rndShr (m.toInt * c.toInt) 30 :=
    rndShr_mono (mul_le_mul_of_nonneg_right hlo hc) 30
  have h2 : rndShr (m.toInt * c.toInt) 30 ≤ rndShr (hi * c.toInt) 30 :=
    rndShr_mono (mul_le_mul_of_nonneg_right hhi hc) 30
  have hq : (qmul m c 30 30 30).toInt = rndShr (m.toInt * c.toInt) 30 :=
    wrap32_toInt_of_fits (hfits.1.trans h1) (h2.trans_lt hfits.2)
  rw [hq]
  exact ⟨h1, h2⟩

/-- The mantissa that LOG10 sees is in `[0.5, 1/sqrt 2]` (`42_polynomial.md` R106). -/
theorem log10Reduce_fst_bounds {x : Word} (hx : 0 < x.toInt) :
    0x20000000 ≤ (log10Reduce x).1.toInt ∧ (log10Reduce x).1.toInt ≤ 0x2D413CCD := by
  obtain ⟨hlo, hhi, -⟩ := largestOperandAloneReachesOne x hx
  rw [log10Reduce_fst]
  split
  case isTrue hfold =>
    have hc : (0x2D413CCD#32).toInt = 759250125 := by decide
    obtain ⟨h1, h2⟩ := qmul_toInt_bounds (m := mantissa x) (c := 0x2D413CCD#32) (lo := 759250126) (hi := 2 ^ 30)
      (by decide) hfold hhi (by decide)
    rw [hc] at h1 h2
    exact ⟨le_trans (by decide) h1, le_trans h2 (by decide)⟩
  case isFalse hfold => exact ⟨hlo, not_lt.mp hfold⟩

/-- The doubled exponent of LOG10 is in `-50 .. 11` (`42_polynomial.md` R107). -/
theorem log10Reduce_snd_bounds {x : Word} (hx : 0 < x.toInt) :
    -50 ≤ (log10Reduce x).2 ∧ (log10Reduce x).2 ≤ 11 := by
  have h1 := scan_pos hx
  have h2 := scan_le x
  rw [log10Reduce_snd]
  split <;> omega

/-- Settles O54: the bounds are `log10Reduce_fst_bounds` and `log10Reduce_snd_bounds`; the doubled exponent survives its
word, and an odd one has an odd product. -/
theorem log10ReducesItsDomain : Obligations.Log10ReducesItsDomain := by
  intro x hx
  obtain ⟨hm1, hm2⟩ := log10Reduce_fst_bounds hx
  obtain ⟨he1, he2⟩ := log10Reduce_snd_bounds hx
  refine ⟨hm1, hm2, he1, he2, ?term, fun hodd => ?half⟩
  case term =>
    have hc : (rom .log10Of2).toInt = 20201781 := by decide
    rw [qmul, hc, wrap32_toInt_of_fits (by omega) (by omega)]
  case half =>
    rw [rndShr_succ _ 0]
    omega

/-- With the root the factor sqrt 2 moves `[0.5, 1/sqrt 2)` up to `[1/sqrt 2, 1)` (`42_polynomial.md` R122). -/
theorem invReduce_bounds_of_root {x : Word} (hx : 0 < x.toInt) (hroot : invTakesRoot x = true) :
    759250125 ≤ (invReduce x).toInt ∧ (invReduce x).toInt ≤ 1073741823 := by
  have hm := (invTakesRoot_iff x).mp hroot
  have hc : (rom .sqrt2).toInt = 1518500250 := by decide
  obtain ⟨h1, h2⟩ := qmul_toInt_bounds (m := mantissa x) (c := rom .sqrt2) (lo := 2 ^ 29) (hi := 759250124)
    (by decide) (two_pow_le_mantissa hx) (by omega) (by decide)
  rw [hc] at h1 h2
  rw [invReduce, if_pos hroot]
  exact ⟨le_trans (by decide) h1, le_trans h2 (by decide)⟩

/-- From 1/sqrt 2 on the mantissa is taken as it is (`42_polynomial.md` R122). -/
theorem invReduce_of_threshold_le {x : Word} (h : 759250125 ≤ (mantissa x).toInt) : invReduce x = mantissa x :=
  if_neg (mt (invTakesRoot_iff x).mp (not_lt.mpr h))

/-- The combined exponent of INV is in `-5 .. 56` (`42_polynomial.md` R124). -/
theorem exponent_add_bounds {x : Word} (hx : 0 < x.toInt) {px : Nat} (hpx : px ≤ 31) :
    -5 ≤ exponent x px + 25 ∧ exponent x px + 25 ≤ 56 := by
  have h1 := scan_pos hx
  have h2 := scan_le x
  rw [exponent]
  omega

/-- Settles O55: below the threshold by `invReduce_bounds_of_root`, from it on by `invReduce_of_threshold_le`; the
exponent is `exponent_add_bounds`. -/
theorem invReducesItsDomain : Obligations.InvReducesItsDomain := by
  intro x hx
  obtain ⟨-, hhi, -⟩ := largestOperandAloneReachesOne x hx
  have hthreshold (h : mantissa x = 759250125#32) : invReduce x = mantissa x :=
    invReduce_of_threshold_le (h ▸ by decide)
  have hexp (px : Nat) (hpx : px ≤ 31) := exponent_add_bounds hx hpx
  by_cases hroot : invTakesRoot x = true
  · obtain ⟨h1, h2⟩ := invReduce_bounds_of_root hx hroot
    exact ⟨h1, by omega, fun _ => h2, hthreshold, hexp⟩
  · have hm := not_lt.mp (mt (invTakesRoot_iff x).mpr hroot)
    rw [invReduce_of_threshold_le hm]
    exact ⟨hm, hhi, fun h => absurd h hroot, fun _ => rfl, hexp⟩

/-- Settles O52: the scan of zero finds no bit, and its three policies are branches of the operations. -/
theorem zeroOperandPolicies : Obligations.ZeroOperandPolicies := by
  intro s fa fy ha hfa hfy
  have hm : mantissa 0 = 0 := by decide
  have hscan : scan 0 = 0 := by decide
  rw [exec_rexp_of_legal hfa, exec_inv_of_legal hfa hfy, exec_log10, ha, hm, exponent, hscan, Nat.cast_zero, zero_sub]
  exact ⟨rfl, rfl, rfl⟩

end Sys2Proof.Machine

/-! The symmetry of SIN (`42_polynomial.md` R111). -/

namespace Sys2Proof.Machine

theorem wrap32_neg (v : Int) : wrap32 (-v) = -wrap32 v := BitVec.ofInt_neg

theorem wrap32_add (v w : Int) : wrap32 (v + w) = wrap32 v + wrap32 w := BitVec.ofInt_add v w

/-- Negating a factor negates the rounded product, or is one more on an exact half. -/
theorem qmul_neg_right (y : Word) {x : Word} (hx : x ≠ 0x80000000#32) :
    qmul y (-x) 30 30 30 =
      if y.toInt * x.toInt % 2 ^ 30 = 2 ^ 29 then -qmul y x 30 30 30 + 1 else -qmul y x 30 30 30 := by
  have hprod : y.toInt * (-x).toInt = -(y.toInt * x.toInt) := by rw [BitVec.toInt_neg_of_ne_intMin hx, mul_neg]
  rw [qmul, qmul, hprod, rndShr_neg _ 29]
  split
  · rw [wrap32_add, wrap32_neg]
    rfl
  · rw [wrap32_neg]

/-- Settles O57: the accumulator sees the square alone, and the last product is `qmul_neg_right`. -/
theorem sinIsOddExceptOnHalves : Obligations.SinIsOddExceptOnHalves := by
  refine ⟨by decide, fun x hx => ?_⟩
  have hsquare : qmul (-x) (-x) 30 30 30 = qmul x x 30 30 30 := by
    rw [qmul, qmul, BitVec.toInt_neg_of_ne_intMin hx, neg_mul_neg]
  have hacc : sinAcc (-x) = sinAcc x := by rw [sinAcc, sinAcc, hsquare]
  refine ⟨hacc, ?_⟩
  rw [sinValue, sinValue, hacc]
  exact qmul_neg_right (sinAcc x) hx

end Sys2Proof.Machine

/-! The composition multiplexer, continued: LOG, LIN2DB, and the operations that ask a collaborator (`43_composition.md`
R131 to R144). -/

namespace Sys2Proof.Machine

/-- Settles O9: the value is the definition with its constants, `exec_log` the operation, `exec_and_step_noFields` the
block. -/
theorem logAnswersSentinelOrScaledLog10 : Obligations.LogAnswersSentinelOrScaledLog10 := by
  intro s y
  have hln : (rom .ln10).toInt = 1236190959 := by decide
  have hy : logValue s.a = y := by
    rw [logValue, qmul, hln]
    rfl
  rw [← hy]
  obtain ⟨hexec, hstep⟩ := exec_and_step_noFields (exec_log s) (decode_log s.cmd)
  refine ⟨hexec, fun t ht => ?_, hstep⟩
  obtain rfl := Host.Outcome.next.inj ((exec_log10 s).symm.trans ht)
  rfl

/-- The product by twenty in Q5.26 and the shift by 31 are the product by five and the shift by 3: the same bits are
rounded away. -/
theorem rndShr_twenty (v : Int) : rndShr (1342177280 * v) 31 = rndShr (5 * v) 3 := by
  rw [rndShr_succ _ 30, rndShr_succ _ 2]
  omega

/-- Settles O10: the value is the definition with its constants, in one rounding by `rndShr_twenty`; `exec_lin2db` is
the operation, `exec_and_step_noFields` the block. -/
theorem lin2dbAnswersSentinelOrDecibels : Obligations.Lin2dbAnswersSentinelOrDecibels := by
  intro s y
  have htwenty : (rom .twenty).toInt = 1342177280 := by decide
  have hy : lin2dbValue s.a = y := by
    rw [lin2dbValue, qmul, htwenty]
    rfl
  obtain ⟨hexec, hstep⟩ := exec_and_step_noFields (exec_lin2db s) (decode_lin2db s.cmd)
  rw [← hy]
  refine ⟨hexec, fun ha => ?_, hstep⟩
  rw [hy, ← rndShr_twenty]
  exact if_neg (not_le.mpr ha)

/-- What an operation with an external call says four times over: the call goes out, on the port with its selector bit;
the awaited answer is the response; the block does so for every command word with its `OP`, unless a field is not
zero. -/
theorem exec_and_step_call {s : State} {i : Instr} {op : BitVec 4} {c : ExtRequest}
    (hcall : externalCall i s.a s.b = some c)
    (hdec : opField s.cmd = op → decode s.cmd = if FieldsZero s.cmd then .ok i else .error .reservedField) :
    exec i s = .next (waiting s c.sel c.arg) ∧
      extPort (waiting s c.sel c.arg) = some (extSelCode c.sel, c.arg) ∧
      (∀ rest, step { waiting s c.sel c.arg with inputs := .extAnswer :: rest } =
        .next (answered { s with inputs := rest, ext := none } (extValue c) 0)) ∧
      (Executing s → opField s.cmd = op →
        step s = .next (if FieldsZero s.cmd then waiting s c.sel c.arg else errored s 2)) := by
  obtain ⟨hexec, hstep⟩ := exec_and_step_noFields (exec_eq_issueCall hcall) hdec
  exact ⟨hexec, rfl, step_answer_of_waitExt (s := waiting s c.sel c.arg) rfl rfl, hstep⟩

/-- Settles O11: `exec_and_step_call`. -/
theorem db2linAsksAndRelaysAnswer : Obligations.Db2linAsksAndRelaysAnswer :=
  fun s => exec_and_step_call (i := .db2lin) rfl (decode_db2lin s.cmd)

/-- Settles O12: `exec_and_step_call`. -/
theorem kneeexpAsksAndRelaysAnswer : Obligations.KneeexpAsksAndRelaysAnswer :=
  fun s => exec_and_step_call (i := .kneeexp) rfl (decode_kneeexp s.cmd)

/-- Settles O13: `exec_and_step_call`, and `exec_log` for the `Y` of LOG. -/
theorem powAsksWithScaledLog : Obligations.PowAsksWithScaledLog := by
  intro s t
  obtain ⟨hexec, hport, hanswer, hstep⟩ := exec_and_step_call (s := s) (i := .pow) rfl (decode_pow s.cmd)
  refine ⟨hexec, hport, fun u hu => ?_, hanswer, hstep⟩
  obtain rfl := Host.Outcome.next.inj ((exec_log s).symm.trans hu)
  rfl

/-- On LOG's sentinel path POW's factor is the sentinel (`43_composition.md` R144 a). -/
theorem powArg_of_nonpos {x : Word} (hx : x.toInt ≤ 0) (z : Word) :
    powArg x z = wrap32 (rndShr (z.toInt * (-2013265920)) 29) := by
  have hsent : (rom .sentLog).toInt = -2013265920 := by decide
  rw [powArg, qmul, logValue_of_nonpos hx, hsent]

/-- Settles O58: the sentinel path and its three values by `powArg_of_nonpos`; 1.0 in Q2.30 is `2 ^ 29` twice, which the
shift by 29 undoes (`rndShr_mul_two_pow`). -/
theorem powArgumentCornerCases : Obligations.PowArgumentCornerCases := by
  intro x y
  refine ⟨fun hx => powArg_of_nonpos hx y, ?zero, ?one, ?_, ?_, ?_⟩
  case zero =>
    have hz : (0 : Word).toInt = 0 := by decide
    rw [powArg, qmul, hz, zero_mul]
    decide
  case one =>
    have hone : (0x40000000#32).toInt = 2 * 2 ^ 29 := by decide
    rw [powArg, qmul, hone, mul_right_comm, rndShr_mul_two_pow]
  all_goals
    rw [powArg_of_nonpos (by decide)]
    decide

/-- Settles O59: the four command words pass the checks as POW, KNEEEXP, QMUL and LOG, and the composition is POW's
argument. -/
theorem powIsLogQmulKneeexp : Obligations.PowIsLogQmulKneeexp := by
  intro f g x y z z'
  have hpow : checkCommand 0x0000000C#32 = .ok .pow := by decide
  have hkneeexp : checkCommand 0x0000000B#32 = .ok .kneeexp := by decide
  have hqmul : checkCommand 0x001B69E0#32 = .ok (.qmul 30 26 27) := by decide
  have hlog : checkCommand 0x00000008#32 = .ok .log := by decide
  simp only [execute, hpow, hkneeexp, hqmul, hlog]
  rfl

end Sys2Proof.Machine

/-! The constant table of `10_state.md` R30 as the conversion of its real values (`00_scope.md` R19; `40_qarith.md`
R76). -/

namespace Sys2Proof.Machine

/-- The conversion of a rational as its two bounds. -/
theorem fixedRat_eq_iff (num q : Int) {den : Nat} (f : Nat) (hden : 0 < den) :
    fixedRat num den f = q ↔
      2 * den * q ≤ 2 * num * 2 ^ f + den ∧ 2 * num * 2 ^ f + den < 2 * den * (q + 1) := by
  have hpos : (0 : Int) < 2 * den := by positivity
  rw [fixedRat]
  push_cast
  rw [Int.ediv_eq_iff_of_pos hpos, mul_comm q]
  constructor <;> rintro ⟨h1, h2⟩ <;> exact ⟨h1, by linarith⟩

/-- The conversion of a rational in integers is that of the real number. -/
theorem fixedRat_eq_iff_isFixed (num q : Int) {den : Nat} (f : Nat) (hden : 0 < den) :
    fixedRat num den f = q ↔ IsFixed ((num : ℝ) / den) f q := by
  have hpos : (0 : ℝ) < 2 * den := by positivity
  have hscale : 2 * den * ((num : ℝ) / den * 2 ^ f + 1 / 2) = 2 * num * 2 ^ f + den := by
    field_simp
  rw [fixedRat_eq_iff num q f hden, isFixed_iff,
    ← mul_le_mul_iff_right₀ hpos, ← mul_lt_mul_iff_right₀ hpos, hscale]
  norm_cast

/-- A printed decimal of the table is converted as the rational it is. -/
theorem isFixed_of_denotes_decimal {num q : Int} {den f : Nat} {r : ℝ} (hden : 0 < den)
    (hr : (RomReal.decimal num den).Denotes r) (hq : fixedRat num den f = q) : IsFixed r f q := by
  rw [show r = num / den from hr]
  exact (fixedRat_eq_iff_isFixed num q f hden).mp hq

/-- A positive real is converted to the integer whose half-unit bounds, squared, enclose its square. -/
theorem isFixed_of_sq_bounds {r : ℝ} {f : Nat} {q : Int} (hr : 0 ≤ r) (hq : 1 ≤ q)
    (h1 : ((2 * q - 1 : Int) : ℝ) ^ 2 < 2 ^ (2 * f + 2) * r ^ 2)
    (h2 : 2 ^ (2 * f + 2) * r ^ 2 < ((2 * q + 1 : Int) : ℝ) ^ 2) : IsFixed r f q := by
  have hsq : 2 ^ (2 * f + 2) * r ^ 2 = (2 * (r * 2 ^ f)) ^ 2 := by ring
  have hq' : (1 : ℝ) ≤ q := by exact_mod_cast hq
  rw [hsq] at h1 h2
  push_cast at h1 h2
  have hlo := lt_of_pow_lt_pow_left₀ 2 (by positivity) h1
  have hhi := lt_of_pow_lt_pow_left₀ 2 (by linarith) h2
  exact (isFixed_iff r f q).mpr ⟨by linarith, by linarith⟩

/-- 1/sqrt 2 in Q2.30. -/
theorem isFixed_one_div_sqrt_two : IsFixed (1 / Real.sqrt 2) 30 759250125 := by
  have hsq : (1 / Real.sqrt 2) ^ 2 = 1 / 2 := by rw [div_pow, Real.sq_sqrt (by norm_num), one_pow]
  exact isFixed_of_sq_bounds (by positivity) (by norm_num) (by rw [hsq]; norm_num) (by rw [hsq]; norm_num)

/-- sqrt 2 in Q2.30. -/
theorem isFixed_sqrt_two : IsFixed (Real.sqrt 2) 30 1518500250 := by
  have hsq : Real.sqrt 2 ^ 2 = 2 := Real.sq_sqrt (by norm_num)
  exact isFixed_of_sq_bounds (by positivity) (by norm_num) (by rw [hsq]; norm_num) (by rw [hsq]; norm_num)

/-- 2/pi in Q2.30; ten decimals of pi decide the rounding. -/
theorem isFixed_two_div_pi : IsFixed (2 / Real.pi) 30 683565276 := by
  have hlo : (683565276 - 1 / 2) * Real.pi < 2 ^ 31 := by linarith [Real.pi_lt_d20]
  have hhi : 2 ^ 31 < (683565276 + 1 / 2) * Real.pi := by linarith [Real.pi_gt_d20]
  have h1 := (lt_div_iff₀ Real.pi_pos).mpr hlo
  have h2 := (div_lt_iff₀ Real.pi_pos).mpr hhi
  have hscale : 2 / Real.pi * 2 ^ 30 = 2 ^ 31 / Real.pi := by ring
  rw [isFixed_iff, hscale]
  push_cast
  exact ⟨by linarith, by linarith⟩

/-- Every entry of the table is the conversion of its real value (`10_state.md` R30). -/
theorem rom_isFixed (n : RomName) {r : ℝ} (hr : (romSource n).1.Denotes r) :
    IsFixed r (romSource n).2 (rom n).toInt := by
  cases n with
  | oneOverSqrt2 =>
    obtain rfl : r = 1 / Real.sqrt 2 := hr
    exact isFixed_one_div_sqrt_two
  | sqrt2 =>
    obtain rfl : r = Real.sqrt 2 := hr
    exact isFixed_sqrt_two
  | twoOverPi =>
    obtain rfl : r = 2 / Real.pi := hr
    exact isFixed_two_div_pi
  | _ => exact isFixed_of_denotes_decimal (by decide) hr (by decide)

/-- Settles O60: the conversion of a rational by `fixedRat_eq_iff` and `fixedRat_eq_iff_isFixed`, the table by
`rom_isFixed`; the examples and the squares of the two roots are computed. -/
theorem tableIsTheConvertedLiterals : Obligations.TableIsTheConvertedLiterals := by
  refine ⟨fun num q den f hden => ⟨fixedRat_eq_iff num q f hden, fixedRat_eq_iff_isFixed num q f hden⟩,
    by decide, by decide, by decide, by decide, by decide, by decide, fun n r => rom_isFixed n,
    by decide, by decide, by decide, by decide⟩

end Sys2Proof.Machine
